-- ==== Sys2Proof/Word.lean ====
section
/-! DEFINITION. The one word of the machine: a byte (00_scope.md R6, 20_memory.md R55). -/

namespace Sys2Proof

/-- A byte: a memory cell, a general register, an opcode, an operand (R6, R50, R22 with decision D1, R81).
Every value is read as unsigned. -/
abbrev Byte := BitVec 8

end Sys2Proof
end

