-- ==== Sys2Proof/Syntax.lean ====
section
/-! DEFINITION. The nine instructions of 30_encoding.md R85, one constructor per row of spec/opcode_table.json. An
operand is the whole operand byte: a register operand above 7 is an instruction that decodes and faults when it is
executed (R83, R88), so operands are bytes and not register numbers. -/

namespace Sys2Proof

/-- An instruction, in the order of the opcode table (R85). `a` is byte 1 and `b` is byte 2 (R81). -/
inductive Instr where
  /-- `HLT`: halt (R116). -/
  | hlt
  /-- `PRN Ra`: print register (R130). -/
  | prn (a : Byte)
  /-- `LDI Ra, imm`: load immediate (R131). -/
  | ldi (a b : Byte)
  /-- `ADD Ra, Rb`: add (R141). -/
  | add (a b : Byte)
  /-- `MUL Ra, Rb`: multiply (R142). -/
  | mul (a b : Byte)
  /-- `PUSH Ra`: push register (R151). -/
  | push (a : Byte)
  /-- `POP Ra`: pop register (R152). -/
  | pop (a : Byte)
  /-- `CALL Ra`: call the subroutine whose address is in a register (R160). -/
  | call (a : Byte)
  /-- `IRET`: defined opcode with no effect (R161). -/
  | iret
  deriving DecidableEq, Repr

end Sys2Proof
end

