-- ==== Sys2Proof/Decode.lean ====
section
/-! DEFINITION. The decoder (30_encoding.md R80 to R89, 40_engine.md R113) and, after it, the encoder. -/

namespace Sys2Proof

/-- Why bytes are no instruction. -/
inductive DecodeError where
  /-- The first byte is none of the nine opcodes (R87). The machine turns this into the fatal error of R171. -/
  | unknownOpcode (ir : Byte)
  /-- There is no first byte. Only a listing of bytes can ask this (R93): the engine always holds three (R112). -/
  | noBytes
  /-- The bytes end before the instruction does. Only a listing of bytes can ask this, as above. -/
  | truncated (ir : Byte)
  deriving DecidableEq, Repr

/-- One row of the decoder's fixed table (R82): the opcode byte gives the instruction and its length together.
`build` makes the instruction from the bytes `a` and `b`. -/
structure OpcodeRow where
  opcode : Byte
  mnemonic : String
  length : Nat
  build : Byte → Byte → Instr

/-- The nine opcodes, in the order of the table of R85. The lengths of `HLT` and `IRET` are decisions D3 and D2. -/
def opcodeTable : List OpcodeRow :=
  [ ⟨0x01, "HLT", 1, fun _ _ => .hlt⟩,
    ⟨0x47, "PRN", 2, fun a _ => .prn a⟩,
    ⟨0x82, "LDI", 3, fun a b => .ldi a b⟩,
    ⟨0xA0, "ADD", 3, fun a b => .add a b⟩,
    ⟨0xA2, "MUL", 3, fun a b => .mul a b⟩,
    ⟨0x45, "PUSH", 2, fun a _ => .push a⟩,
    ⟨0x46, "POP", 2, fun a _ => .pop a⟩,
    ⟨0x50, "CALL", 2, fun a _ => .call a⟩,
    ⟨0x13, "IRET", 1, fun _ _ => .iret⟩ ]

/-- The row an opcode byte selects, by equality of the whole byte (R82, R85, R113). -/
def opcodeRow? (ir : Byte) : Option OpcodeRow :=
  opcodeTable.find? (fun row => row.opcode == ir)

/-- Decode the three bytes a fetch has latched (R113). Bytes beyond the instruction's length are ignored (R82). -/
def decode (ir a b : Byte) : Except DecodeError Instr :=
  match opcodeRow? ir with
  | some row => .ok (row.build a b)
  | none => .error (.unknownOpcode ir)

/-- Decode the instruction at the head of any bytes and give back the bytes after it (R80, R93). -/
def decodeBytes : List Byte → Except DecodeError (Instr × List Byte)
  | [] => .error .noBytes
  | ir :: rest =>
    match opcodeRow? ir with
    | none => .error (.unknownOpcode ir)
    | some row =>
      if row.length ≤ rest.length + 1 then
        .ok (row.build (rest.getD 0 0) (rest.getD 1 0), rest.drop (row.length - 1))
      else
        .error (.truncated ir)

/-- An instruction's opcode byte (R85). -/
def Instr.opcode : Instr → Byte
  | .hlt => 0x01
  | .prn _ => 0x47
  | .ldi _ _ => 0x82
  | .add _ _ => 0xA0
  | .mul _ _ => 0xA2
  | .push _ => 0x45
  | .pop _ => 0x46
  | .call _ => 0x50
  | .iret => 0x13

/-- An instruction's length in bytes (R80, R85). -/
def Instr.length : Instr → Nat
  | .hlt => 1
  | .prn _ => 2
  | .ldi _ _ => 3
  | .add _ _ => 3
  | .mul _ _ => 3
  | .push _ => 2
  | .pop _ => 2
  | .call _ => 2
  | .iret => 1

/-- The bytes of an instruction, the opcode first (R81: formats Z, R, RI, RR). -/
def encode : Instr → List Byte
  | .hlt => [0x01]
  | .prn a => [0x47, a]
  | .ldi a b => [0x82, a, b]
  | .add a b => [0xA0, a, b]
  | .mul a b => [0xA2, a, b]
  | .push a => [0x45, a]
  | .pop a => [0x46, a]
  | .call a => [0x50, a]
  | .iret => [0x13]

/-- The three bytes, in the order they stand in memory, of an instruction whose bits are `w`, numbered as
spec/opcode_table.json numbers them: the first byte is bits 7..0, the second 15..8, the third 23..16. Bits at `nbits`
and above are 0. -/
def tableWordBytes (nbits w : Nat) : List Byte :=
  let v := w % 2 ^ nbits
  [BitVec.ofNat 8 v, BitVec.ofNat 8 (v / 256), BitVec.ofNat 8 (v / 65536)]

/-- The instruction the decoder reads from an instruction whose bits are `w`, numbered as the opcode table does. -/
def decodeTableWord (nbits w : Nat) : Option Instr :=
  match decodeBytes (tableWordBytes nbits w) with
  | .ok (i, _) => some i
  | .error _ => none

end Sys2Proof
end

