-- ==== Sys2Proof/Config.lean ====
section
/-! DEFINITION. The parameters of the engine, each with the value 00_scope.md R5 gives it. The spec leaves no value
open, so there is no free value here; the one OPEN parameter, the program image, is an argument of the launch
(Machine/Launch.lean). -/

namespace Sys2Proof.Config

/-- `MEM_SIZE`: 256 cells, addresses 0 to 255 (R5, R50). -/
abbrev memSize : Nat := 256

/-- `NREG`: eight general registers, `R0` to `R7` (R5, R21). -/
abbrev numRegs : Nat := 8

/-- `PC_RESET` (R5, R38): execution starts at cell 0. -/
abbrev pcReset : Nat := 0

/-- `SP_RESET` (R5, R38): `0xF4`, so that the first push writes cell `0xF3` (R58). -/
abbrev spReset : Nat := 0xF4

/-- `FL_RESET` (R5, R32). -/
abbrev flReset : Bool := false

/-- `LOAD_BASE`: the address of the first program byte (R5, R202). -/
abbrev loadBase : Nat := 0

/-- What a cell nothing has written holds: memory is zero-filled at reset (R38, R50). -/
abbrev cellReset : Byte := 0

/-- What a general register holds at reset (R38). -/
abbrev regReset : Byte := 0

end Sys2Proof.Config
end

