-- ==== Sys2Proof/Machine/State.lean ====
section
/-! DEFINITION. The whole state of the engine, the seven items of 10_state.md R20, as plain data; its value at reset
(R38); and why the host's step can stop. -/

namespace Sys2Proof.Machine

/-- The memory array of R50 as the list of its cells that do not hold 0, the value an unlisted cell holds (R38).
Its canonical form is `Memory.wf` (Machine/Ops.lean). -/
abbrev Memory := List Host.Cell

/-- The operation tag that drives the ALU: the two values of R140 (decision D16). -/
inductive AluOp where
  | add
  | mul
  deriving DecidableEq, Repr

/-- What an access was made to, with the offending address or index (R172, R173; decision D12). -/
inductive OutOfRange where
  /-- A memory address outside 0 to 255. It can be -1 (R172), so it is an integer. -/
  | memory (addr : Int)
  /-- A register index outside 0 to 7: an operand byte, 8 to 255 (R173). -/
  | register (index : Byte)
  deriving DecidableEq, Repr

/-- The fatal errors of 60_exceptions.md section 2, each with the value it records. An error is not a stop of the
model: it is taken, by `raise`, and its kind and info stand in `State.status` (R176, R178). -/
inductive FatalError where
  /-- A fetched opcode byte that is not in the table (R171). -/
  | unknownOpcode (ir : Byte)
  /-- An address or a register index outside its domain (R172, R173). -/
  | outOfRangeAccess (info : OutOfRange)
  /-- An ALU tag that is not recognized (R174). The tag type is closed, so nothing raises it (R145, decision D16). -/
  | unsupportedOperation (tag : AluOp)
  deriving DecidableEq, Repr

/-- The run status (R33; its third value is decision D5). -/
inductive RunStatus where
  /-- The engine takes steps. -/
  | running
  /-- A `HLT` was executed. -/
  | halted
  /-- A fatal error was raised. -/
  | faulted (error : FatalError)
  deriving DecidableEq, Repr

/-- The seven items of state (R20). "Nothing else is state." -/
structure State where
  /-- The memory array (R50). -/
  mem : Memory
  /-- The general registers `R0` to `R7` (R21, R22). -/
  regs : Vector Byte Config.numRegs
  /-- The program counter, an integer 0 to 256 that never wraps (R26, R27). -/
  pc : Nat
  /-- The stack pointer, an integer 0 to 256 that never wraps (R30, R31). -/
  sp : Nat
  /-- The flags cell: one bit, written and read by nothing (R32). -/
  fl : Bool
  /-- The run status (R33). -/
  status : RunStatus
  /-- The output log, oldest value first (R34). -/
  out : List Byte
  deriving DecidableEq, Repr

/-- The engine right after reset (R38, R200). `RUNNING` is its status at the first fetch (R20). -/
def State.reset : State :=
  { mem := []
    regs := Vector.replicate Config.numRegs Config.regReset
    pc := Config.pcReset
    sp := Config.spReset
    fl := Config.flReset
    status := .running
    out := [] }

/-- Why the host's `step` gives no next state. Both are raised by `step` alone, and only on an engine that has ended:
"When `status` is `HALTED` or `FAULTED` there is no step" (R111). A fatal error of the spec is not one of these: it is
a next state with `status` at `FAULTED` (R178). -/
inductive Fault where
  /-- A step was asked of a `HALTED` engine. Raised by `step`; safe: the engine has no step to take (R33, R111). -/
  | engineHalted
  /-- A step was asked of a `FAULTED` engine. Raised by `step`; safe: the engine has no step to take (R111, R179). -/
  | engineFaulted (error : FatalError)
  deriving DecidableEq, Repr

/-- Why an instruction has no meaning in the model. -/
inductive Refusal where
  /-- An arm of `exec` that has no meaning yet. Raised by `exec` alone; safe. No arm raises it: all nine instructions
  have their meaning. -/
  | notModelled (mnemonic : String)
  deriving DecidableEq, Repr

end Sys2Proof.Machine
end

