-- ==== Sys2Proof/Machine/Ops.lean ====
section
/-! DEFINITION. The named operations over memory, registers, counters and the output log, and the taking of a fatal
error. Every reader and writer of a piece of state goes through here. -/

namespace Sys2Proof.Machine

/-! ### Memory as a list of cells -/

/-- The byte in cell `a`: the listed value, or the reset value of an unlisted cell (R38, R50). -/
def Memory.get : Memory → Nat → Byte
  | [], _ => Config.cellReset
  | c :: m, a => if c.1 = a then c.2 else Memory.get m a

/-- The list without any entry for cell `a`. -/
def Memory.erase (m : Memory) (a : Nat) : Memory :=
  m.filter (fun c => c.1 != a)

/-- The list with an entry for cell `a` put in at its place in the rising order. -/
def Memory.insert : Memory → Nat → Byte → Memory
  | [], a, v => [(a, v)]
  | c :: m, a, v => if a < c.1 then (a, v) :: c :: m else c :: Memory.insert m a v

/-- Set cell `a` to `v` (R53). Writing the value of an unlisted cell removes the entry. -/
def Memory.put (m : Memory) (a : Nat) (v : Byte) : Memory :=
  if v = Config.cellReset then m.erase a else (m.erase a).insert a v

/-- The canonical form above address `lo`: addresses rise, each is a cell of R50, none holds the unlisted value. -/
def Memory.wfFrom : Nat → Memory → Bool
  | _, [] => true
  | lo, c :: m =>
    decide (lo ≤ c.1) && decide (c.1 < Config.memSize) && (c.2 != Config.cellReset) && Memory.wfFrom (c.1 + 1) m

/-- The canonical form of memory: addresses strictly rising, each in 0 to 255, no entry equal to what an unlisted
address reads as. -/
def Memory.wf (m : Memory) : Bool :=
  Memory.wfFrom 0 m

/-! ### Access to state -/

/-- The cell an address selects: the addresses 0 to 255 are the cells, and no other is reduced to one (R50, R52). -/
def cell? (addr : Int) : Option Nat :=
  match addr with
  | .ofNat a => if a < Config.memSize then some a else none
  | .negSucc _ => none

/-- `MemRead(addr, 1)`: the byte in cell `addr` for `addr` in 0 to 255, else `OutOfRangeAccess(memory, addr)` (R52). -/
def memRead (s : State) (addr : Int) : Except FatalError Byte :=
  match cell? addr with
  | some a => .ok (s.mem.get a)
  | none => .error (.outOfRangeAccess (.memory addr))

/-- `MemWrite(addr, 1, v)`: set cell `addr` for `addr` in 0 to 255, else `OutOfRangeAccess(memory, addr)` (R53). -/
def memWrite (s : State) (addr : Int) (v : Byte) : Except FatalError State :=
  match cell? addr with
  | some a => .ok { s with mem := s.mem.put a v }
  | none => .error (.outOfRangeAccess (.memory addr))

/-- The register an operand byte selects, with no masking: 0 to 7, else `OutOfRangeAccess(register, i)` (R25, R83). -/
def regIndex (i : Byte) : Except FatalError (Fin Config.numRegs) :=
  if h : i.toNat < Config.numRegs then
    .ok ⟨i.toNat, h⟩
  else
    .error (.outOfRangeAccess (.register i))

/-- The value of general register `r` (R21). -/
def State.reg (s : State) (r : Fin Config.numRegs) : Byte :=
  s.regs[r]

/-- Write general register `r` (R21). No register is hardwired (R23). -/
def State.setReg (s : State) (r : Fin Config.numRegs) (v : Byte) : State :=
  { s with regs := s.regs.set r v }

/-- `x[i]` for an index byte (R7, R25). -/
def readReg (s : State) (i : Byte) : Except FatalError Byte := do
  let r ← regIndex i
  pure (s.reg r)

/-- `x[i] <- v` for an index byte (R7, R25). -/
def writeReg (s : State) (i : Byte) (v : Byte) : Except FatalError State := do
  let r ← regIndex i
  pure (s.setReg r v)

/-- `pc <- pc0 + n`, on a counter that does not wrap (R27, R114). -/
def State.advance (s : State) (n : Nat) : State :=
  { s with pc := s.pc + n }

/-- `out <- out ++ [v]` (R34, R130). Emitting cannot fail (decision D9). -/
def State.emit (s : State) (v : Byte) : State :=
  { s with out := s.out ++ [v] }

/-- The address `CALL` stores: that of the byte after the two-byte `CALL` (R160). At most 255 wherever a `CALL`
executes, since it does so only at 253 or below (R51). -/
def returnAddress (pc0 : Nat) : Byte :=
  BitVec.ofNat 8 (pc0 + 2)

/-! ### Taking a fatal error, and ending -/

/-- What one step or one instruction's meaning answers. -/
abbrev Result := Host.Outcome State Fault Refusal

/-- Take a fatal error: `status` becomes `FAULTED(kind, info)` and nothing else is written; `pc` stays at the faulting
instruction, nothing is saved and there is no handler (R8, R178). There is no return from it (R179). -/
def raise (e : FatalError) (s : State) : Result :=
  .next { s with status := .faulted e }

/-- The end of an instruction begun at `s`: its effect whole, or the fatal error with none of its effect (R8, R115). -/
def settle (s : State) : Except FatalError State → Result
  | .ok t => .next t
  | .error e => raise e s

/-- `status <- HALTED` (R116). -/
def State.halt (s : State) : State :=
  { s with status := .halted }

/-- Why an engine takes no step: it has ended (R33, R111). -/
def stopped? (s : State) : Option Fault :=
  match s.status with
  | .running => none
  | .halted => some .engineHalted
  | .faulted e => some (.engineFaulted e)

/-! ### The host's side of the output port -/

/-- The decimal numeral of an emitted value: no sign, no leading zeros, no padding (R132). -/
def decimalNumeral (v : Byte) : String :=
  Nat.repr v.toNat

/-- The text form of the output log: one line per value, in execution order (R34, R132). The line end is the end of a
list element: the spec names no character for it (decision D9). -/
def State.outputLines (s : State) : List String :=
  s.out.map decimalNumeral

end Sys2Proof.Machine
end

