-- ==== Sys2Proof/Machine/Flags.lean ====
section
/-! DEFINITION. Every flag computation of the spec. There is none: "`ADD` and `MUL` set no carry, overflow, zero or sign
flag" and no other instruction writes `fl` (10_state.md R32, 42_alu.md R143). -/

namespace Sys2Proof.Machine

/-- The flags cell after an ALU operation: as it was (R32, R141, R142). -/
def flagAfterAlu (_op : AluOp) (_x _y : Byte) (fl : Bool) : Bool :=
  fl

end Sys2Proof.Machine
end

