-- ==== Sys2Proof/Machine/Alu.lean ====
section
/-! DEFINITION. The ALU block and its two instructions `ADD` and `MUL` (42_alu.md). There is no `SUB` (R146). -/

namespace Sys2Proof.Machine

/-- The value the ALU computes: the sum or the product, reduced modulo 256 (R141, R142, R143; decision D1). -/
def aluResult : AluOp → Byte → Byte → Byte
  | .add, x, y => x + y
  | .mul, x, y => x * y

/-- `apply(operation, register_a, register_b)`: read both registers, write the result to the first (R140). Index `a` is
checked before index `b`, and both before the write (R115). -/
def aluApply (op : AluOp) (a b : Byte) (s : State) : Except FatalError State := do
  let ra ← regIndex a
  let rb ← regIndex b
  pure { s.setReg ra (aluResult op (s.reg ra) (s.reg rb)) with
         fl := flagAfterAlu op (s.reg ra) (s.reg rb) s.fl }

/-- `ADD Ra, Rb`: `x[a] <- (x[a] + x[b]) mod 256`, `pc <- pc0 + 3` (R141). -/
def execAdd (a b : Byte) (s : State) : Result :=
  settle s (do
    let t ← aluApply .add a b s
    pure (t.advance (Instr.add a b).length))

/-- `MUL Ra, Rb`: `x[a] <- (x[a] * x[b]) mod 256`, `pc <- pc0 + 3` (R142). -/
def execMul (a b : Byte) (s : State) : Result :=
  settle s (do
    let t ← aluApply .mul a b s
    pure (t.advance (Instr.mul a b).length))

end Sys2Proof.Machine
end

