-- ==== Sys2Proof/Machine/Operands.lean ====
section
/-! DEFINITION. The operand forms of the instruction set: register (source and destination, by `readReg` and `writeReg`
of Machine/Ops.lean), immediate, stack with pre-decrement, stack with post-increment. No instruction has an address,
offset or displacement field (30_encoding.md R84). -/

namespace Sys2Proof.Machine

/-- The immediate operand, byte 2 of `LDI`, used as it stands: no extension, scaling or shift (R84). -/
def immOperand (b : Byte) : Byte :=
  b

/-- The effective address of a push: `sp - 1`, which is -1 at `sp = 0` (R151, R160). -/
def pushAddress (s : State) : Int :=
  (s.sp : Int) - 1

/-- The effective address of a pop: `sp` (R152). -/
def popAddress (s : State) : Int :=
  s.sp

/-- Stack operand, pre-decrement: write `v` at `sp - 1`, which becomes `sp`; the access is range-checked and `sp` never
holds -1 (R31, R150, R151). -/
def pushByte (s : State) (v : Byte) : Except FatalError State := do
  let t ← memWrite s (pushAddress s) v
  pure { t with sp := (pushAddress s).toNat }

/-- Stack operand, post-increment: read at `sp`, then add 1; the popped cell keeps its value (R150, R152). -/
def popByte (s : State) : Except FatalError (Byte × State) := do
  let v ← memRead s (popAddress s)
  pure (v, { s with sp := s.sp + 1 })

end Sys2Proof.Machine
end

