-- ==== Sys2Proof/Machine/Control.lean ====
section
/-! DEFINITION. The control-transfer instructions `CALL` and `IRET` (44_control_transfer.md). There is no `RET`
(R162) and no other control transfer (R163). -/

namespace Sys2Proof.Machine

/-- `CALL Ra`: push `pc0 + 2`, then `pc <- x[a]` with no increment added; the target is the register as it stood before
the step (R160). -/
def execCall (a : Byte) (s : State) : Result :=
  settle s (do
    let target ← readReg s a
    let t ← pushByte s (returnAddress s.pc)
    pure { t with pc := target.toNat })

/-- `IRET`: `pc <- pc0 + 1` and nothing else: it pops nothing and restores nothing (R161; the advance is decision
D2). -/
def execIret (s : State) : Result :=
  .next (s.advance Instr.iret.length)

end Sys2Proof.Machine
end

