-- ==== Sys2Proof/Machine/Engine.lean ====
section
/-! DEFINITION. `HLT` (40_engine.md R116). -/

namespace Sys2Proof.Machine

/-- `HLT`: `status <- HALTED` and nothing else; `pc` stays at the `HLT` (R116; decision D3). -/
def execHlt (s : State) : Result :=
  .next s.halt

end Sys2Proof.Machine
end

