-- ==== Sys2Proof/Machine/RegImm.lean ====
section
/-! DEFINITION. The register-immediate and print instructions `PRN` and `LDI` (41_reg_imm_print.md). -/

namespace Sys2Proof.Machine

/-- `PRN Ra`: `out <- out ++ [x[a]]`, `pc <- pc0 + 2` (R130). -/
def execPrn (a : Byte) (s : State) : Result :=
  settle s (do
    let v ← readReg s a
    pure ((s.emit v).advance (Instr.prn a).length))

/-- `LDI Ra, imm`: `x[a] <- b`, `pc <- pc0 + 3` (R131). -/
def execLdi (a b : Byte) (s : State) : Result :=
  settle s (do
    let t ← writeReg s a (immOperand b)
    pure (t.advance (Instr.ldi a b).length))

end Sys2Proof.Machine
end

