-- ==== Sys2Proof/Machine/Stack.lean ====
section
/-! DEFINITION. The stack instructions `PUSH` and `POP` (43_stack.md). The register index is checked before the stack
address (40_engine.md R115). -/

namespace Sys2Proof.Machine

/-- `PUSH Ra`: `sp <- sp - 1`, `mem[sp - 1] <- x[a]`, `pc <- pc0 + 2` (R151). -/
def execPush (a : Byte) (s : State) : Result :=
  settle s (do
    let v ← readReg s a
    let t ← pushByte s v
    pure (t.advance (Instr.push a).length))

/-- `POP Ra`: `x[a] <- mem[sp]`, `sp <- sp + 1`, `pc <- pc0 + 2` (R152). -/
def execPop (a : Byte) (s : State) : Result :=
  settle s (do
    let r ← regIndex a
    let (v, t) ← popByte s
    pure ((t.setReg r v).advance (Instr.pop a).length))

end Sys2Proof.Machine
end

