-- ==== Sys2Proof/Machine/Fetch.lean ====
section
/-! DEFINITION. The fetch and the decode of a step (40_engine.md R112, R113), and the placing of bytes in memory from
outside the engine. -/

namespace Sys2Proof.Machine

/-- The three bytes a fetch latches, held for one step (R7, R37, R112). -/
structure Latch where
  ir : Byte
  a : Byte
  b : Byte
  deriving DecidableEq, Repr

/-- Fetch: read the cells at `pc`, `pc + 1`, `pc + 2`, always all three and in this order, each under the range check
of `memRead` (R65, R112; decision D7). -/
def fetch (s : State) : Except FatalError Latch := do
  let ir ← memRead s s.pc
  let a ← memRead s ((s.pc : Int) + 1)
  let b ← memRead s ((s.pc : Int) + 2)
  pure ⟨ir, a, b⟩

/-- Fetch, then decode: the instruction of this step, or the fatal error met on the way, fetch before decode (R113,
R115). -/
def fetchDecode (s : State) : Except FatalError Instr := do
  let l ← fetch s
  match decode l.ir l.a l.b with
  | .ok i => pure i
  | .error _ => .error (.unknownOpcode l.ir)

/-- Put one byte into memory from outside the engine; where there is no cell, nothing is written. No agent of the
machine does this while it runs: it stands for the loader in `State.withFetchWord`. -/
def placeByte (s : State) (addr : Nat) (v : Byte) : State :=
  match memWrite s addr v with
  | .ok t => t
  | .error _ => s

/-- Put bytes into memory at ascending addresses from `addr`. -/
def placeBytes : State → Nat → List Byte → State
  | s, _, [] => s
  | s, addr, v :: vs => placeBytes (placeByte s addr v) (addr + 1) vs

end Sys2Proof.Machine
end

