-- ==== Sys2Proof/Machine/Step.lean ====
section
/-! DEFINITION. The step of the engine (40_engine.md R111): one whole instruction. -/

namespace Sys2Proof.Machine

/-- One step: fetch, decode, execute and the `pc` update together (R10, R111). It is defined while `status` is
`RUNNING`; an engine that has ended has no step, which is the host's fault outcome. -/
def step (s : State) : Host.Outcome State Fault Refusal :=
  match stopped? s with
  | some f => .fault f
  | none =>
    match fetchDecode s with
    | .error e => raise e s
    | .ok i => exec i s

/-- `s` with the instruction whose bits are `w` (numbered as spec/opcode_table.json numbers them, bits at `nbits` and
above 0) stored where `step` fetches its next instruction: at `pc`. -/
def State.withFetchWord (s : State) (nbits w : Nat) : State :=
  placeBytes s s.pc (tableWordBytes nbits w)

end Sys2Proof.Machine
end

