-- ==== Sys2Proof/Machine/Launch.lean ====
section
/-! DEFINITION. The launch: reset, load, start (70_reset_and_hazards.md R201 to R203, 20_memory.md R66). The image
comes as bytes; reading and parsing its file is outside the engine (00_scope.md R4, R175). -/

namespace Sys2Proof.Machine

/-- The loader's writes: byte `k` of the image to cell `base + k`, in ascending order, and nothing else (R66, R202). -/
def loadImage : Nat → List Byte → State → Except FatalError State
  | _, [], s => .ok s
  | base, v :: vs, s => do
    let t ← memWrite s base v
    loadImage (base + 1) vs t

/-- The launch state of an image (R201). An image longer than memory has none: its load fails before the run (R203,
decision D10). -/
def launch (image : List Byte) : Option State :=
  match loadImage Config.loadBase image State.reset with
  | .ok s => some s
  | .error _ => none

end Sys2Proof.Machine
end

