-- ==== Sys2Proof/Machine/Listing.lean ====
section
/-! DEFINITION. The spec's listing notation and disassembly (30_encoding.md R90, R93; decision D14): conventions for
reading bytes, no behaviour of the machine. -/

namespace Sys2Proof.Machine

/-- A register operand: `R0` to `R7`, or `R#<n>` for an index that faults (R90). -/
def regListing (a : Byte) : String :=
  if a.toNat < Config.numRegs then "R" ++ decimalNumeral a else "R#" ++ decimalNumeral a

/-- An instruction in the notation of R90. -/
def instrListing : Instr → String
  | .hlt => "HLT"
  | .prn a => "PRN " ++ regListing a
  | .ldi a b => "LDI " ++ regListing a ++ ", " ++ decimalNumeral b
  | .add a b => "ADD " ++ regListing a ++ ", " ++ regListing b
  | .mul a b => "MUL " ++ regListing a ++ ", " ++ regListing b
  | .push a => "PUSH " ++ regListing a
  | .pop a => "POP " ++ regListing a
  | .call a => "CALL " ++ regListing a
  | .iret => "IRET"

/-- Disassembly of at most `fuel` lines from address `addr`: decode, take the length from the table, go on at the next
address; a byte that begins no whole instruction is shown as `.byte` (R93). -/
def disassemble : Nat → Nat → List Byte → List (Nat × String)
  | 0, _, _ => []
  | _, _, [] => []
  | fuel + 1, addr, v :: vs =>
    match decodeBytes (v :: vs) with
    | .ok (i, rest) => (addr, instrListing i) :: disassemble fuel (addr + i.length) rest
    | .error _ => (addr, ".byte " ++ decimalNumeral v) :: disassemble fuel (addr + 1) vs

end Sys2Proof.Machine
end

