-- ==== Sys2Proof/WellFormed.lean ====
section
/-! DEFINITION. Which instructions name only registers that exist (10_state.md R25, 30_encoding.md R83). Every
instruction can be encoded and decoded, well formed or not (R88); an instruction that is not well formed faults with
`OutOfRangeAccess(register, i)` when it is executed (R173). -/

namespace Sys2Proof

/-- Does an operand byte select one of `R0` to `R7` (R83)? -/
def regByteOk (a : Byte) : Bool :=
  decide (a.toNat < Config.numRegs)

/-- Every register operand selects a register. The immediate of `LDI` is never checked (R83, R131). -/
def Instr.wellFormed : Instr → Bool
  | .hlt => true
  | .prn a => regByteOk a
  | .ldi a _ => regByteOk a
  | .add a b => regByteOk a && regByteOk b
  | .mul a b => regByteOk a && regByteOk b
  | .push a => regByteOk a
  | .pop a => regByteOk a
  | .call a => regByteOk a
  | .iret => true

end Sys2Proof
end

