-- ==== Sys2Proof/Safety.lean ====
section
/-! DEFINITION. The terms in which claims about the engine are stated: its invariant, its end, what a step keeps, and the
conditions of the fatal errors. -/

namespace Sys2Proof.Machine

/-! ### Invariant and end -/

/-- Memory is in canonical form, and `pc` and `sp` are integers in 0 to 256 (R20, R27, R31). -/
abbrev State.Inv (s : State) : Prop :=
  s.mem.wf = true ∧ s.pc ≤ 256 ∧ s.sp ≤ 256

/-- A run has ended when `status` is `HALTED` or `FAULTED` (R118). -/
abbrev State.Ended (s : State) : Prop :=
  s.status ≠ .running

/-- The run has not met a fatal error: the premise of a claim that a program runs correctly (R179). -/
abbrev State.Safe (s : State) : Prop :=
  ∀ e, s.status ≠ .faulted e

/-! ### Frames: what is as it was -/

/-- Every general register is as it was. -/
abbrev State.RegsKept (s t : State) : Prop :=
  ∀ r : Fin 8, t.reg r = s.reg r

/-- Every general register is as it was but the one operand byte `d` selects. -/
abbrev State.RegsKeptBut (s t : State) (d : Byte) : Prop :=
  ∀ r : Fin 8, r.val ≠ d.toNat → t.reg r = s.reg r

/-- Every cell of memory reads as it did. -/
abbrev State.BytesKept (s t : State) : Prop :=
  ∀ addr : Nat, t.mem.get addr = s.mem.get addr

/-- Every cell of memory reads as it did but the one at `ea`. -/
abbrev State.BytesKeptBut (s t : State) (ea : Int) : Prop :=
  ∀ addr : Nat, (addr : Int) ≠ ea → t.mem.get addr = s.mem.get addr

/-- The flags cell, the run status and the output log are as they were. -/
abbrev State.RestKept (s t : State) : Prop :=
  t.fl = s.fl ∧ t.status = s.status ∧ t.out = s.out

/-- `s` after the fatal error `e`: "`status` alone" differs (R111, R178). -/
abbrev State.faultedBy (s : State) (e : FatalError) : State :=
  { s with status := .faulted e }

/-! ### The conditions of the fatal errors, over the raw bytes at `pc` -/

/-- The nine opcode bytes, in the order of R171. -/
def knownOpcodes : List Byte :=
  [0x01, 0x47, 0x82, 0xA0, 0xA2, 0x45, 0x46, 0x50, 0x13]

/-- The opcodes whose byte 1 is a register index: `PRN`, `LDI`, `ADD`, `MUL`, `PUSH`, `POP`, `CALL` (R173). -/
def regOperandOpcodes : List Byte :=
  [0x47, 0x82, 0xA0, 0xA2, 0x45, 0x46, 0x50]

/-- When a running engine's next step raises `e` (R171 to R174), with the order of checks of R115 and R177 written out:
fetch range; opcode; index `a`; index `b`; stack address. -/
def FatalCondition (s : State) : FatalError → Prop
  | .unknownOpcode ir =>
    s.pc ≤ 253 ∧ ir = s.mem.get s.pc ∧ ir ∉ knownOpcodes
  | .outOfRangeAccess (.register i) =>
    s.pc ≤ 253 ∧
      ((s.mem.get s.pc ∈ regOperandOpcodes ∧ i = s.mem.get (s.pc + 1) ∧ 7 < i.toNat) ∨
       ((s.mem.get s.pc = 0xA0 ∨ s.mem.get s.pc = 0xA2) ∧
          (s.mem.get (s.pc + 1)).toNat ≤ 7 ∧ i = s.mem.get (s.pc + 2) ∧ 7 < i.toNat))
  | .outOfRangeAccess (.memory addr) =>
    (254 ≤ s.pc ∧ addr = 256) ∨
      (s.pc ≤ 253 ∧ (s.mem.get (s.pc + 1)).toNat ≤ 7 ∧
        (((s.mem.get s.pc = 0x45 ∨ s.mem.get s.pc = 0x50) ∧ s.sp = 0 ∧ addr = -1) ∨
         (s.mem.get s.pc = 0x46 ∧ s.sp = 256 ∧ addr = 256)))
  | .unsupportedOperation _ => False

/-! ### Straight-line runs -/

/-- From `s` the engine can take `n` steps one after another, none of which executes a `CALL` (R210). The steps that end
the run (a `HLT`, a fatal error) count. -/
def straightRun : Nat → State → Bool
  | 0, _ => true
  | n + 1, s =>
    match fetchDecode s, step s with
    | .ok (.call _), _ => false
    | _, .next t => straightRun n t
    | _, _ => false

end Sys2Proof.Machine
end

