-- ==== Sys2Proof/Certificates/Slice0/Obligations.lean ====
section
/-! DEFINITION. The statements for the provers, from the numbered rules of spec/. A clause that rests on a decision of
92_eei_decisions.md (the spec's own choice where its source is silent) or on a choice of the model names it. -/

open Sys2Proof Sys2Proof.Machine

/-! ### Encoding -/

/-- The nine opcode bytes decode to the nine instructions with the operand bytes in place, and have the lengths of the
table (30_encoding.md section 3). The lengths of `HLT` and `IRET` are the spec's decisions D3 and D2. -/
def Obligations.NineOpcodesDecode : Prop :=
  ∀ a b : Byte,
    (decode 0x01 a b = .ok .hlt ∧ Instr.hlt.length = 1) ∧
    (decode 0x47 a b = .ok (.prn a) ∧ (Instr.prn a).length = 2) ∧
    (decode 0x82 a b = .ok (.ldi a b) ∧ (Instr.ldi a b).length = 3) ∧
    (decode 0xA0 a b = .ok (.add a b) ∧ (Instr.add a b).length = 3) ∧
    (decode 0xA2 a b = .ok (.mul a b) ∧ (Instr.mul a b).length = 3) ∧
    (decode 0x45 a b = .ok (.push a) ∧ (Instr.push a).length = 2) ∧
    (decode 0x46 a b = .ok (.pop a) ∧ (Instr.pop a).length = 2) ∧
    (decode 0x50 a b = .ok (.call a) ∧ (Instr.call a).length = 2) ∧
    (decode 0x13 a b = .ok .iret ∧ Instr.iret.length = 1)

/-- Decode and encode agree on all bytes, both ways: bytes decode to an instruction and a rest exactly when they are
that instruction's encoding followed by that rest. It covers every instruction and every operand byte, the register
bytes above 7 among them (30_encoding.md sections 1 to 4). -/
def Obligations.DecodeAndEncodeAgree : Prop :=
  ∀ (bytes : List Byte) (i : Instr) (rest : List Byte),
    decodeBytes bytes = .ok (i, rest) ↔ bytes = encode i ++ rest

/-- The engine's decoder reads an instruction from its three latched bytes exactly when the instruction's encoding is
those bytes cut to the instruction's length: the bytes beyond are ignored (30_encoding.md section 1). -/
def Obligations.LatchedBytesDecodeByLength : Prop :=
  ∀ (ir a b : Byte) (i : Instr), decode ir a b = .ok i ↔ encode i = [ir, a, b].take i.length

/-- R87 and R171: a first byte that is none of the nine raises `UnknownOpcode(ir)` when it is executed, with `status`
alone changed; only such a byte raises it; there are 256 - 9 = 247 of them, `0x00` among them. -/
def Obligations.UnknownOpcodeIsFatal : Prop :=
  (∀ s : State, s.status = .running → s.pc ≤ 253 → s.mem.get s.pc ∉ knownOpcodes →
    step s = .next (s.faultedBy (.unknownOpcode (s.mem.get s.pc)))) ∧
  (∀ (s t : State) (ir : Byte), s.status = .running → step s = .next t → t.status = .faulted (.unknownOpcode ir) →
    ir = s.mem.get s.pc ∧ ir ∉ knownOpcodes) ∧
  (knownOpcodes.Nodup ∧ 2 ^ 8 - knownOpcodes.length = 247) ∧
  (0x00 : Byte) ∉ knownOpcodes

/-! ### The step -/

/-- A running engine whose fetch succeeds and whose bytes decode to `i` takes the step `exec i` (40_engine.md section 2).
The step adds nothing around `exec`: each instruction updates `pc` itself (R114). -/
def Obligations.StepRunsDecodedInstruction : Prop :=
  ∀ (s : State) (i : Instr), s.status = .running → s.pc ≤ 253 →
    decode (s.mem.get s.pc) (s.mem.get (s.pc + 1)) (s.mem.get (s.pc + 2)) = .ok i →
    step s = exec i s

/-- At `pc` 254, 255 and 256 nothing executes, whatever the bytes are: the fetch faults at address 256 (10_state.md
section 3, 40_engine.md section 2; the spec's decision D7). -/
def Obligations.FetchFaultsAtTheTop : Prop :=
  ∀ s : State, s.status = .running → 254 ≤ s.pc → s.pc ≤ 256 →
    step s = .next (s.faultedBy (.outOfRangeAccess (.memory 256)))

/-- An engine that is `HALTED` or `FAULTED` has no step, and only such an engine has none. That "no step" is the host's fault outcome is the model's
reading (log 1); the third status value is the spec's decision D5. -/
def Obligations.EndedEngineHasNoStep : Prop :=
  ∀ s : State,
    (s.status = .halted → step s = .fault .engineHalted) ∧
    (∀ e, s.status = .faulted e → step s = .fault (.engineFaulted e)) ∧
    (s.Ended ↔ ∀ t, step s ≠ .next t)

/-- A running engine always has a step, with exactly one of three outcomes: a next state that is `RUNNING`; the same
state `HALTED`, only from `HLT`; the same state `FAULTED` (40_engine.md section 2). That the rest is as before a halt and
a fault is the spec's decisions D3 and D5. -/
def Obligations.RunningStepHasThreeOutcomes : Prop :=
  ∀ s : State, s.status = .running →
    (∃ t, step s = .next t ∧ t.status = .running) ∨
    (step s = .next { s with status := .halted } ∧ fetchDecode s = .ok .hlt) ∨
    (∃ e, step s = .next (s.faultedBy e))

/-- Every fatal error is raised exactly when its condition holds, in the order of checks fetch range, opcode, index `a`,
index `b`, stack address: `FatalCondition` writes the conditions over the raw bytes at `pc` (60_exceptions.md sections 2
and 4, 40_engine.md section 2); and the next state is free of a fatal error exactly when no condition holds. The order is the spec's decision D6, the frozen state D5, the fetch fault D7. -/
def Obligations.FatalErrorsExactlyByTheirConditions : Prop :=
  ∀ s : State, s.Inv → s.status = .running →
    (∀ e : FatalError, step s = .next (s.faultedBy e) ↔ FatalCondition s e) ∧
    (∀ t : State, step s = .next t → (t.Safe ↔ ∀ e, ¬ FatalCondition s e))

/-- No step raises `UnsupportedOperation`: the decoder drives the ALU with the two tags it has (42_alu.md section 3, an
inference the spec marks as its own; decision D16). -/
def Obligations.UnsupportedOperationNeverRaised : Prop :=
  ∀ (s t : State) (op : AluOp), s.status = .running → step s = .next t →
    t.status ≠ .faulted (.unsupportedOperation op)

/-! ### Memory and registers -/

/-- R52: `MemRead` returns the byte of a cell for an address in 0 to 255, and is `OutOfRangeAccess(memory, addr)` for
any other, not reduced modulo 256. It gives no state, so it changes nothing. -/
def Obligations.MemReadIsRangeChecked : Prop :=
  ∀ (s : State) (addr : Int),
    (∀ a : Nat, addr = a → a ≤ 255 → memRead s addr = .ok (s.mem.get a)) ∧
    (addr < 0 ∨ 255 < addr → memRead s addr = .error (.outOfRangeAccess (.memory addr)))

/-- R53: `MemWrite` sets the cell of an address in 0 to 255, any of them, and leaves every other cell and all other
state; a later `MemRead` of it returns the byte until it is written again; for any other address it is
`OutOfRangeAccess(memory, addr)` and gives no changed memory. -/
def Obligations.MemWriteSetsOneCell : Prop :=
  ∀ (s : State) (addr : Int) (v : Byte),
    (0 ≤ addr → addr ≤ 255 →
      ∃ t, memWrite s addr v = .ok t ∧ memRead t addr = .ok v ∧ s.BytesKeptBut t addr ∧
        { t with mem := s.mem } = s ∧
        ∀ (other : Int) (w : Byte) (u : State), other ≠ addr → memWrite t other w = .ok u →
          memRead u addr = .ok v) ∧
    (addr < 0 ∨ 255 < addr → memWrite s addr v = .error (.outOfRangeAccess (.memory addr)))

/-- R25: `x[i]` and `x[i] <- v` are defined for `i` in 0 to 7 and are `OutOfRangeAccess(register, i)` for any other
index byte, which is not masked or wrapped. A write changes the one register and nothing else. -/
def Obligations.RegisterIndexDomain : Prop :=
  ∀ (s : State) (i v : Byte),
    (∀ r : Fin 8, r.val = i.toNat →
      readReg s i = .ok (s.reg r) ∧
      ∃ t, writeReg s i v = .ok t ∧ t.reg r = v ∧ s.RegsKeptBut t i ∧ { t with regs := s.regs } = s) ∧
    (7 < i.toNat →
      readReg s i = .error (.outOfRangeAccess (.register i)) ∧
      writeReg s i v = .error (.outOfRangeAccess (.register i)))

/-- A byte written to a cell is what every later fetch latches from that cell, and the other latched bytes are as they
were: fetch, stack and loader share one memory (20_memory.md sections 1 and 7; an inference the spec marks as its
own). -/
def Obligations.FetchSeesStores : Prop :=
  ∀ (s t : State) (addr : Nat) (v : Byte) (pc : Nat), memWrite s addr v = .ok t → pc ≤ 253 →
    ∃ l, fetch { t with pc := pc } = .ok l ∧
      l.ir = (if pc = addr then v else s.mem.get pc) ∧
      l.a = (if pc + 1 = addr then v else s.mem.get (pc + 1)) ∧
      l.b = (if pc + 2 = addr then v else s.mem.get (pc + 2))

/-! ### Reset, launch, invariant -/

/-- Reset leaves every cell and register 0, `pc` 0, `sp` `0xF4`, `fl` false (10_state.md section 9,
70_reset_and_hazards.md section 1). The empty log is the spec's decision D9, `RUNNING` its decision D5 read by the model
as the reset value (log 13), reading what nothing has written its decision D18. -/
def Obligations.ResetLeavesTheStatedValues : Prop :=
  (∀ addr : Int, 0 ≤ addr → addr ≤ 255 → memRead State.reset addr = .ok 0) ∧
  (∀ r : Fin 8, State.reset.reg r = 0) ∧
  State.reset.pc = 0 ∧ State.reset.sp = 0xF4 ∧ State.reset.fl = false ∧ State.reset.out = [] ∧
  State.reset.status = .running

/-- The state after reset meets the invariant (10_state.md sections 1 and 9). That memory is in canonical form is about
the model's own way of writing memory down, its choice of log 5. -/
def Obligations.ResetMeetsTheInvariant : Prop :=
  State.reset.Inv

/-- Every step keeps the invariant: memory in canonical form, `pc` and `sp` in 0 to 256 (10_state.md sections 3 and 4,
inferences the spec marks as its own; the counters' width is its decision D4; the canonical form is the model's, log
5). -/
def Obligations.StepKeepsTheInvariant : Prop :=
  ∀ s t : State, s.Inv → step s = .next t → t.Inv

/-- The launch puts byte `k` of the image in cell `k`, leaves every other cell 0 and all other state at reset, and meets
the invariant; an image longer than 256 bytes has no launch (70_reset_and_hazards.md section 2; the length bound is the
spec's decision D10). The clause that the launch state meets the invariant says among other things that memory is in
canonical form: that form is the model's choice, log 5, and no rule of the spec. -/
def Obligations.LaunchPlacesTheImage : Prop :=
  ∀ image : List Byte,
    (image.length ≤ 256 →
      ∃ s, launch image = some s ∧ (∀ k : Nat, s.mem.get k = image.getD k 0) ∧
        { s with mem := State.reset.mem } = State.reset ∧ s.Inv) ∧
    (256 < image.length → launch image = none)

/-! ### What each instruction does -/

/-- `HLT` completes: `status` becomes `HALTED` and every other item is as it was (40_engine.md section 2). That `pc` is
unchanged is the spec's decision D3. -/
def Obligations.HltHaltsAndChangesNothingElse : Prop :=
  ∀ s : State, ∃ t, exec .hlt s = .next t ∧ t.status = .halted ∧
    s.RegsKept t ∧ s.BytesKept t ∧ t.pc = s.pc ∧ t.sp = s.sp ∧ t.fl = s.fl ∧ t.out = s.out

/-- `PRN Ra` completes for every `a` in 0 to 7: the register's byte is appended to the output log, `pc` moves on by 2,
nothing else changes (41_reg_imm_print.md). That emitting cannot fail is the spec's decision D9. -/
def Obligations.PrnEmitsTheRegister : Prop :=
  ∀ (s : State) (a : Byte) (r : Fin 8), r.val = a.toNat →
    ∃ t, exec (.prn a) s = .next t ∧ t.out = s.out ++ [s.reg r] ∧ t.pc = s.pc + 2 ∧
      s.RegsKept t ∧ s.BytesKept t ∧ t.sp = s.sp ∧ t.fl = s.fl ∧ t.status = s.status

/-- R131: `LDI Ra, imm` is opcode `0x82` with length 3. For `a` in 0 to 7 it completes: `x[a]` is the immediate as it
stands, any byte, `pc` moves on by 3, nothing else changes. For `a` above 7 it is `OutOfRangeAccess(register, a)`, with
no register written and `pc` where it was. -/
def Obligations.LdiLoadsTheImmediate : Prop :=
  ∀ (s : State) (a b : Byte),
    (decode 0x82 a b = .ok (.ldi a b) ∧ (Instr.ldi a b).length = 3) ∧
    (∀ r : Fin 8, r.val = a.toNat →
      ∃ t, exec (.ldi a b) s = .next t ∧ t.reg r = b ∧ s.RegsKeptBut t a ∧ t.pc = s.pc + 3 ∧
        s.BytesKept t ∧ t.sp = s.sp ∧ s.RestKept t) ∧
    (7 < a.toNat → exec (.ldi a b) s = .next (s.faultedBy (.outOfRangeAccess (.register a))))

/-- `ADD Ra, Rb` completes for `a` and `b` in 0 to 7, also when they are the same: `x[a]` becomes the sum of the two
prior values modulo 256, `pc` moves on by 3, nothing else changes and no flag is set (42_alu.md section 2). The
reduction modulo 256 is the spec's decision D1. -/
def Obligations.AddStoresTheSum : Prop :=
  ∀ (s : State) (a b : Byte) (ra rb : Fin 8), ra.val = a.toNat → rb.val = b.toNat →
    ∃ t, exec (.add a b) s = .next t ∧
      (t.reg ra).toNat = ((s.reg ra).toNat + (s.reg rb).toNat) % 256 ∧ s.RegsKeptBut t a ∧ t.pc = s.pc + 3 ∧
      s.BytesKept t ∧ t.sp = s.sp ∧ s.RestKept t

/-- `MUL Ra, Rb` completes for `a` and `b` in 0 to 7, also when they are the same: `x[a]` becomes the product of the two
prior values modulo 256, `pc` moves on by 3, nothing else changes and no flag is set (42_alu.md section 2). The
reduction modulo 256 is the spec's decision D1. -/
def Obligations.MulStoresTheProduct : Prop :=
  ∀ (s : State) (a b : Byte) (ra rb : Fin 8), ra.val = a.toNat → rb.val = b.toNat →
    ∃ t, exec (.mul a b) s = .next t ∧
      (t.reg ra).toNat = ((s.reg ra).toNat * (s.reg rb).toNat) % 256 ∧ s.RegsKeptBut t a ∧ t.pc = s.pc + 3 ∧
      s.BytesKept t ∧ t.sp = s.sp ∧ s.RestKept t

/-- `PUSH Ra` completes for `a` in 0 to 7 and `sp` in 1 to 256: the cell at `sp - 1` holds the register's byte and every
other cell is as it was, `sp` is one less, `pc` moves on by 2, no register or other item changes (43_stack.md section 2).
The range of `sp` is the spec's decision D4. -/
def Obligations.PushStoresBelowTheTop : Prop :=
  ∀ (s : State) (a : Byte) (r : Fin 8), r.val = a.toNat → 1 ≤ s.sp → s.sp ≤ 256 →
    ∃ t, exec (.push a) s = .next t ∧
      (∀ addr : Nat, (addr : Int) = pushAddress s → t.mem.get addr = s.reg r) ∧ s.BytesKeptBut t (pushAddress s) ∧
      t.sp + 1 = s.sp ∧ t.pc = s.pc + 2 ∧ s.RegsKept t ∧ s.RestKept t

/-- `POP Ra` completes for `a` in 0 to 7 and `sp` in 0 to 255: `x[a]` is the byte of the cell at `sp`, `sp` is one more,
`pc` moves on by 2, memory and every other item are as they were, so the popped cell keeps its value (43_stack.md
section 2). The range of `sp` is the spec's decision D4. -/
def Obligations.PopLoadsTheTop : Prop :=
  ∀ (s : State) (a : Byte) (r : Fin 8), r.val = a.toNat → s.sp ≤ 255 →
    ∃ t, exec (.pop a) s = .next t ∧ t.reg r = s.mem.get s.sp ∧ s.RegsKeptBut t a ∧ t.sp = s.sp + 1 ∧
      t.pc = s.pc + 2 ∧ s.BytesKept t ∧ s.RestKept t

/-- `CALL Ra` completes for `a` in 0 to 7, `sp` in 1 to 256 and `pc` at most 253, where alone it executes: the cell at
`sp - 1` holds `pc + 2` unnarrowed and every other cell is as it was, `sp` is one less, `pc` is the register's byte with
no increment, no register or other item changes (44_control_transfer.md). The range of `sp` is the spec's decision D4,
that of `pc` its decision D7. -/
def Obligations.CallPushesAndJumps : Prop :=
  ∀ (s : State) (a : Byte) (r : Fin 8), r.val = a.toNat → 1 ≤ s.sp → s.sp ≤ 256 → s.pc ≤ 253 →
    ∃ t, exec (.call a) s = .next t ∧ t.pc = (s.reg r).toNat ∧
      (∀ addr : Nat, (addr : Int) = pushAddress s → (t.mem.get addr).toNat = s.pc + 2) ∧
      s.BytesKeptBut t (pushAddress s) ∧ t.sp + 1 = s.sp ∧ s.RegsKept t ∧ s.RestKept t

/-- `IRET` completes and does nothing but move `pc` on by 1: it pops nothing and restores nothing
(44_control_transfer.md). That `pc` advances is the spec's decision D2. -/
def Obligations.IretOnlyAdvances : Prop :=
  ∀ s : State, ∃ t, exec .iret s = .next t ∧ t.pc = s.pc + 1 ∧
    s.RegsKept t ∧ s.BytesKept t ∧ t.sp = s.sp ∧ s.RestKept t

/-! ### Where instructions fault -/

/-- An index above 7 in byte `a` of `PRN`, `LDI`, `ADD`, `MUL`, `PUSH`, `POP`, `CALL`, or in byte `b` of `ADD` and `MUL`
when `a` is in range, raises `OutOfRangeAccess(register, i)` with `status` alone changed, whatever `sp` is
(60_exceptions.md sections 2 and 4). The order of checks is the spec's decision D6, the frozen state D5, the tag D12. -/
def Obligations.RegisterIndexFaults : Prop :=
  ∀ (s : State) (a b : Byte),
    (7 < a.toNat →
      ∀ i ∈ [Instr.prn a, .ldi a b, .add a b, .mul a b, .push a, .pop a, .call a],
        exec i s = .next (s.faultedBy (.outOfRangeAccess (.register a)))) ∧
    (a.toNat ≤ 7 → 7 < b.toNat →
      ∀ i ∈ [Instr.add a b, .mul a b],
        exec i s = .next (s.faultedBy (.outOfRangeAccess (.register b))))

/-- An instruction faults on a register index exactly when it is not well formed: well-formedness is the check of every
byte the instruction uses as a register index and of no other (30_encoding.md section 2). -/
def Obligations.IllFormedExactlyWhenRegisterFault : Prop :=
  ∀ (s : State) (i : Instr), s.status = .running →
    (i.wellFormed = false ↔ ∃ k, exec i s = .next (s.faultedBy (.outOfRangeAccess (.register k))))

/-- `PUSH` and `CALL` at `sp = 0` raise `OutOfRangeAccess(memory, -1)` and `POP` at `sp = 256` raises
`OutOfRangeAccess(memory, 256)`, with `status` alone changed (43_stack.md sections 2 and its bounds, 60_exceptions.md
section 2). The frozen state is the spec's decision D5, the range of `sp` D4. -/
def Obligations.StackAddressFaults : Prop :=
  ∀ (s : State) (a : Byte), a.toNat ≤ 7 →
    (s.sp = 0 →
      exec (.push a) s = .next (s.faultedBy (.outOfRangeAccess (.memory (-1)))) ∧
      exec (.call a) s = .next (s.faultedBy (.outOfRangeAccess (.memory (-1))))) ∧
    (s.sp = 256 → exec (.pop a) s = .next (s.faultedBy (.outOfRangeAccess (.memory 256))))

/-! ### Rules of the whole machine -/

/-- R32: `fl` is false at reset, no step writes it, and no step reads it: a step from a state with another flag gives
the same next state with that flag. -/
def Obligations.FlagsCellIsDead : Prop :=
  State.reset.fl = false ∧
  ∀ s t : State, step s = .next t →
    t.fl = s.fl ∧ ∀ f : Bool, step { s with fl := f } = .next { t with fl := f }

/-- The output log only grows, by at most one value a step, and only by a `PRN`, whose register it is; no step reads it:
a step from a state with another log does the same and appends the same (10_state.md section 7). That the log is a
sequence of values is the spec's decision D9. -/
def Obligations.OutputLogOnlyGrowsAndIsNotRead : Prop :=
  ∀ s t : State, step s = .next t →
    ∃ vs : List Byte, t.out = s.out ++ vs ∧
      (vs = [] ∨ ∃ (a : Byte) (r : Fin 8), fetchDecode s = .ok (.prn a) ∧ r.val = a.toNat ∧ vs = [s.reg r]) ∧
      ∀ log : List Byte, step { s with out := log } = .next { t with out := log ++ vs }

/-- A step changes a byte of memory only when it executes a `PUSH` or a `CALL`, and then only the cell at `sp - 1`: no
instruction can store to a chosen address (20_memory.md section 4, 70_reset_and_hazards.md section 3). -/
def Obligations.MemoryWrittenOnlyByPushAndCall : Prop :=
  ∀ (s t : State) (addr : Nat), step s = .next t → t.mem.get addr ≠ s.mem.get addr →
    (∃ a, fetchDecode s = .ok (.push a) ∨ fetchDecode s = .ok (.call a)) ∧ (addr : Int) = pushAddress s

/-- A step changes a general register only when it executes an `LDI`, `ADD`, `MUL` or `POP`, and then only the one that
byte `a` selects (10_state.md section 2). -/
def Obligations.RegistersWrittenOnlyByTheirWriters : Prop :=
  ∀ (s t : State) (r : Fin 8), step s = .next t → t.reg r ≠ s.reg r →
    ∃ a b : Byte, r.val = a.toNat ∧
      (fetchDecode s = .ok (.ldi a b) ∨ fetchDecode s = .ok (.add a b) ∨ fetchDecode s = .ok (.mul a b) ∨
        fetchDecode s = .ok (.pop a))

/-- A step leaves `sp` as it was, or executes a `PUSH` or `CALL` and makes it one less, or executes a `POP` and makes it
one more (10_state.md section 4). -/
def Obligations.StackPointerMovesByOne : Prop :=
  ∀ s t : State, step s = .next t →
    t.sp = s.sp ∨
    (t.sp + 1 = s.sp ∧ ∃ a, fetchDecode s = .ok (.push a) ∨ fetchDecode s = .ok (.call a)) ∨
    (t.sp = s.sp + 1 ∧ ∃ a, fetchDecode s = .ok (.pop a))

/-- After a step that leaves the engine running, `pc` has moved on by the instruction's length, or, for a `CALL`, is the
register's byte; after a halt or a fault it is where it was (10_state.md section 3). The spec's decisions D2 (`IRET`),
D3 (`HLT`) and D5 (faults) stand behind the clauses about these. -/
def Obligations.ProgramCounterAfterEachStep : Prop :=
  ∀ s t : State, s.status = .running → step s = .next t →
    (t.status ≠ .running → t.pc = s.pc) ∧
    (t.status = .running → ∃ i, fetchDecode s = .ok i ∧
      ((∃ (a : Byte) (r : Fin 8), i = .call a ∧ r.val = a.toNat ∧ t.pc = (s.reg r).toNat) ∨
       ((∀ a, i ≠ .call a) ∧ t.pc = s.pc + i.length)))

/-! ### Sequences the rules speak of -/

/-- `LDI r, v` followed by `PRN r` emits `v` (41_reg_imm_print.md, its last paragraph; an inference the spec marks as its
own), at every place where both can be fetched. -/
def Obligations.LdiThenPrnEmitsTheImmediate : Prop :=
  ∀ (s : State) (a v : Byte), s.status = .running → s.pc ≤ 250 → a.toNat ≤ 7 →
    s.mem.get s.pc = 0x82 → s.mem.get (s.pc + 1) = a → s.mem.get (s.pc + 2) = v →
    s.mem.get (s.pc + 3) = 0x47 → s.mem.get (s.pc + 4) = a →
    ∃ m t, step s = .next m ∧ step m = .next t ∧ t.out = s.out ++ [v] ∧ t.pc = s.pc + 5 ∧ t.status = .running

/-- `PUSH r` followed by `POP r2` puts the old value of `r` in `r2` and gives `sp` back, the pushed value staying in its
cell, unless the push has overwritten a byte of the `POP` itself (43_stack.md, its property; an inference the spec marks
as its own). -/
def Obligations.PushThenPopMovesTheRegister : Prop :=
  ∀ (s : State) (a b : Byte) (r r2 : Fin 8), s.status = .running → s.pc ≤ 251 → 1 ≤ s.sp → s.sp ≤ 256 →
    r.val = a.toNat → r2.val = b.toNat →
    s.mem.get s.pc = 0x45 → s.mem.get (s.pc + 1) = a → s.mem.get (s.pc + 2) = 0x46 → s.mem.get (s.pc + 3) = b →
    s.sp - 1 ≠ s.pc + 2 → s.sp - 1 ≠ s.pc + 3 →
    ∃ m t, step s = .next m ∧ step m = .next t ∧ t.reg r2 = s.reg r ∧ s.RegsKeptBut t b ∧ t.sp = s.sp ∧
      t.mem.get (s.sp - 1) = s.reg r ∧ t.pc = s.pc + 4 ∧ t.status = .running

/-- A called routine that pops the return address into a register and calls through it comes back to the instruction
after the first `CALL`, with one byte left on the stack (44_control_transfer.md, on the missing return; an inference the
spec marks as its own). -/
def Obligations.CallPopCallComesBack : Prop :=
  ∀ (s : State) (a b : Byte) (r r2 : Fin 8) (p : Nat), s.status = .running → s.pc ≤ 253 → 1 ≤ s.sp → s.sp ≤ 256 →
    r.val = a.toNat → r2.val = b.toNat → (s.reg r).toNat = p → p ≤ 251 →
    s.mem.get s.pc = 0x50 → s.mem.get (s.pc + 1) = a →
    s.mem.get p = 0x46 → s.mem.get (p + 1) = b → s.mem.get (p + 2) = 0x50 → s.mem.get (p + 3) = b →
    (∀ k, k ≤ 3 → s.sp - 1 ≠ p + k) →
    ∃ m n t, step s = .next m ∧ step m = .next n ∧ step n = .next t ∧ t.pc = s.pc + 2 ∧ t.sp + 1 = s.sp ∧
      t.status = .running

/-- Without `CALL` a run ends: from `pc` the engine takes at most `255 - min pc 254` steps, 255 from address 0, the step
that ends the run (a halt or a fault) counted (70_reset_and_hazards.md section 3, an inference the spec marks as its own;
for `IRET` it rests on decision D2). -/
def Obligations.StraightLineRunEnds : Prop :=
  ∀ (n : Nat) (s : State), straightRun n s = true → n + min s.pc 254 ≤ 255
end

