-- ==== Sys2Proof/Laws/Decode.lean ====
section
/-! SUPPORT. Lemmas about the decoder's table. -/

namespace Sys2Proof

/-- No two rows of the opcode table share an opcode, so decoding is unambiguous (R82, R85). -/
theorem opcodeTable_noOverlap : opcodeTable.Pairwise (fun r r' => r.opcode ≠ r'.opcode) := by decide

/-- The row under an opcode byte is a row of the table with that opcode. -/
theorem opcodeRow?_some {ir : Byte} {row : OpcodeRow} (h : opcodeRow? ir = some row) :
    row ∈ opcodeTable ∧ row.opcode = ir := by
  unfold opcodeRow? at h
  exact ⟨List.mem_of_find?_eq_some h, by simpa using List.find?_some h⟩

/-- The row under an instruction's own opcode makes the instruction from its operand bytes. -/
theorem opcodeRow?_opcode (i : Instr) :
    ∃ row, opcodeRow? i.opcode = some row ∧ row.length = i.length ∧
      row.build ((encode i).getD 1 0) ((encode i).getD 2 0) = i := by
  cases i <;> exact ⟨_, rfl, rfl, rfl⟩

/-- No row is found exactly for a byte that is no row's opcode (R87). -/
theorem opcodeRow?_none {ir : Byte} : opcodeRow? ir = none ↔ ∀ row ∈ opcodeTable, row.opcode ≠ ir := by
  simp [opcodeRow?, List.find?_eq_none]

/-- The decoder's answers are the instructions of the rows, and an unknown opcode by name. -/
theorem decode_cases (ir a b : Byte) :
    (∃ row, opcodeRow? ir = some row ∧ decode ir a b = .ok (row.build a b)) ∨
      (opcodeRow? ir = none ∧ decode ir a b = .error (.unknownOpcode ir)) := by
  cases h : opcodeRow? ir with
  | some row => exact .inl ⟨row, rfl, by simp [decode, h]⟩
  | none => exact .inr ⟨rfl, by simp [decode, h]⟩

end Sys2Proof
end

