-- ==== Sys2Proof/Laws/Memory.lean ====
section
/-! SUPPORT. The laws of memory: a read after a write, the canonical form and that every operation keeps it, and that
memories in canonical form are equal when they read alike. -/

namespace Sys2Proof.Machine

@[simp] theorem Memory.get_nil (a : Nat) : Memory.get [] a = 0 := rfl

theorem Memory.get_cons_same {c : Host.Cell} {a : Nat} (h : c.1 = a) (m : Memory) : Memory.get (c :: m) a = c.2 := by
  simp [Memory.get, h]

theorem Memory.get_cons_other {c : Host.Cell} {a : Nat} (h : c.1 ≠ a) (m : Memory) :
    Memory.get (c :: m) a = m.get a := by
  simp [Memory.get, h]

theorem Memory.get_erase (m : Memory) (a x : Nat) :
    (m.erase a).get x = if x = a then 0 else m.get x := by
  unfold Memory.erase
  induction m with
  | nil => simp
  | cons c m ih =>
    by_cases hc : c.1 = a
    · by_cases hx : x = a
      · simp_all
      · have hcx : c.1 ≠ x := fun h => hx (h.symm.trans hc)
        rw [Memory.get_cons_other hcx]
        simp_all
    · by_cases hx : c.1 = x
      · simp_all [Memory.get]
      · simp_all [Memory.get]

theorem Memory.get_insert (m : Memory) (a : Nat) (v : Byte) (h : ∀ c ∈ m, c.1 ≠ a) (x : Nat) :
    (m.insert a v).get x = if x = a then v else m.get x := by
  induction m with
  | nil =>
    by_cases hx : x = a
    · simp [Memory.insert, Memory.get, hx]
    · rw [if_neg hx]
      exact Memory.get_cons_other (fun e => hx e.symm) []
  | cons c m ih =>
    have hc : c.1 ≠ a := h c (by simp)
    have ih := ih (fun d hd => h d (by simp [hd]))
    unfold Memory.insert
    split
    · by_cases hx : x = a
      · simp [Memory.get, hx]
      · rw [if_neg hx]
        exact Memory.get_cons_other (fun e => hx e.symm) _
    · by_cases hx : c.1 = x
      · subst hx; simp [Memory.get, hc]
      · simp [Memory.get, hx, ih]

/-- A cell after a write to cell `a`: the value written at `a`, as before elsewhere (R53). -/
theorem Memory.get_put (m : Memory) (a : Nat) (v : Byte) (x : Nat) :
    (m.put a v).get x = if x = a then v else m.get x := by
  unfold Memory.put
  split
  · rename_i hv; simp [Memory.get_erase, hv]
  · rw [Memory.get_insert _ _ _ (by simp [Memory.erase])]
    by_cases hx : x = a <;> simp [hx, Memory.get_erase]

@[simp] theorem Memory.get_put_same (m : Memory) (a : Nat) (v : Byte) : (m.put a v).get a = v := by
  simp [Memory.get_put]

theorem Memory.get_put_other (m : Memory) (a : Nat) (v : Byte) {x : Nat} (h : x ≠ a) :
    (m.put a v).get x = m.get x := by
  simp [Memory.get_put, h]

/-! ### The canonical form -/

@[simp] theorem Memory.wfFrom_cons (lo : Nat) (c : Host.Cell) (m : Memory) :
    Memory.wfFrom lo (c :: m) = true ↔
      lo ≤ c.1 ∧ c.1 < 256 ∧ c.2 ≠ 0 ∧ Memory.wfFrom (c.1 + 1) m = true := by
  simp [Memory.wfFrom, and_assoc]

theorem Memory.wfFrom_mono {lo lo' : Nat} {m : Memory} (h : lo' ≤ lo) (hm : Memory.wfFrom lo m = true) :
    Memory.wfFrom lo' m = true := by
  cases m with
  | nil => rfl
  | cons c m => simp_all; omega

theorem Memory.wfFrom_erase {lo : Nat} {m : Memory} (a : Nat) (hm : Memory.wfFrom lo m = true) :
    Memory.wfFrom lo (m.erase a) = true := by
  unfold Memory.erase
  induction m generalizing lo with
  | nil => rfl
  | cons c m ih =>
    rw [Memory.wfFrom_cons] at hm
    obtain ⟨h1, h2, h3, h4⟩ := hm
    by_cases hc : c.1 = a
    · simpa [List.filter_cons, hc] using ih (Memory.wfFrom_mono (by omega) h4)
    · simpa [List.filter_cons, hc] using ⟨h1, h2, h3, ih h4⟩

theorem Memory.wfFrom_insert {lo : Nat} {m : Memory} {a : Nat} {v : Byte} (hm : Memory.wfFrom lo m = true)
    (hne : ∀ c ∈ m, c.1 ≠ a) (hlo : lo ≤ a) (ha : a < 256) (hv : v ≠ 0) :
    Memory.wfFrom lo (m.insert a v) = true := by
  induction m generalizing lo with
  | nil =>
    simp only [Memory.insert, Memory.wfFrom_cons]
    exact ⟨hlo, ha, hv, rfl⟩
  | cons c m ih =>
    have hc : c.1 ≠ a := hne c (by simp)
    rw [Memory.wfFrom_cons] at hm
    obtain ⟨h1, h2, h3, h4⟩ := hm
    unfold Memory.insert
    split
    · simp only [Memory.wfFrom_cons]
      exact ⟨hlo, ha, hv, by omega, h2, h3, h4⟩
    · simp only [Memory.wfFrom_cons]
      exact ⟨h1, h2, h3, ih h4 (fun d hd => hne d (by simp [hd])) (by omega)⟩

/-- A write to a cell keeps the canonical form. -/
theorem Memory.wf_put {m : Memory} {a : Nat} {v : Byte} (hm : m.wf = true) (ha : a < 256) :
    (m.put a v).wf = true := by
  unfold Memory.put
  split
  · exact Memory.wfFrom_erase a hm
  · rename_i hv
    exact Memory.wfFrom_insert (Memory.wfFrom_erase a hm) (by simp [Memory.erase]) (Nat.zero_le a) ha hv

/-- Reset memory is in canonical form (R38). -/
theorem Memory.wf_reset : State.reset.mem.wf = true := rfl

theorem Memory.get_eq_zero_of_lt {lo : Nat} {m : Memory} (hm : Memory.wfFrom lo m = true) {a : Nat} (h : a < lo) :
    m.get a = 0 := by
  induction m generalizing lo with
  | nil => rfl
  | cons c m ih =>
    rw [Memory.wfFrom_cons] at hm
    have : c.1 ≠ a := by omega
    simp [Memory.get, this, ih hm.2.2.2 (by omega)]

theorem Memory.eq_of_get_eq_from {lo : Nat} {m m' : Memory} (hm : Memory.wfFrom lo m = true)
    (hm' : Memory.wfFrom lo m' = true) (h : ∀ a, m.get a = m'.get a) : m = m' := by
  induction m generalizing lo m' with
  | nil =>
    cases m' with
    | nil => rfl
    | cons d m' =>
      rw [Memory.wfFrom_cons] at hm'
      have := h d.1
      simp [Memory.get] at this
      exact absurd this.symm hm'.2.2.1
  | cons c m ih =>
    cases m' with
    | nil =>
      rw [Memory.wfFrom_cons] at hm
      have := h c.1
      simp [Memory.get] at this
      exact absurd this hm.2.2.1
    | cons d m' =>
      rw [Memory.wfFrom_cons] at hm hm'
      obtain ⟨_, _, hc, hm⟩ := hm
      obtain ⟨_, _, hd, hm'⟩ := hm'
      have hkey : c.1 = d.1 := by
        by_contra hne
        rcases Nat.lt_or_gt_of_ne hne with hlt | hlt
        · have := h c.1
          rw [Memory.get_cons_same rfl, Memory.get_cons_other (fun e => hne e.symm),
            Memory.get_eq_zero_of_lt hm' (show c.1 < d.1 + 1 by omega)] at this
          exact hc this
        · have := h d.1
          rw [Memory.get_cons_same rfl, Memory.get_cons_other hne,
            Memory.get_eq_zero_of_lt hm (show d.1 < c.1 + 1 by omega)] at this
          exact hd this.symm
      have hval : c.2 = d.2 := by
        have := h c.1
        simpa [Memory.get, hkey] using this
      have htail : m = m' := by
        refine ih hm (hkey ▸ hm') (fun a => ?_)
        by_cases ha : a < c.1 + 1
        · rw [Memory.get_eq_zero_of_lt hm ha, Memory.get_eq_zero_of_lt hm' (by omega)]
        · have := h a
          simpa [Memory.get, show c.1 ≠ a by omega, show d.1 ≠ a by omega] using this
      rw [htail, Prod.ext hkey hval]

/-- The form is canonical: two memories in it that read alike everywhere are equal data. -/
theorem Memory.eq_of_get_eq {m m' : Memory} (hm : m.wf = true) (hm' : m'.wf = true)
    (h : ∀ a, m.get a = m'.get a) : m = m' :=
  Memory.eq_of_get_eq_from hm hm' h

end Sys2Proof.Machine
end

