-- ==== Sys2Proof/Laws/State.lean ====
section
/-! SUPPORT. One lemma per field per update of State, each true by rfl. -/

namespace Sys2Proof.Machine

variable (s : State) (r q : Fin Config.numRegs) (v : Byte) (n : Nat)

@[simp] theorem State.setReg_mem : (s.setReg r v).mem = s.mem := rfl
@[simp] theorem State.setReg_pc : (s.setReg r v).pc = s.pc := rfl
@[simp] theorem State.setReg_sp : (s.setReg r v).sp = s.sp := rfl
@[simp] theorem State.setReg_fl : (s.setReg r v).fl = s.fl := rfl
@[simp] theorem State.setReg_status : (s.setReg r v).status = s.status := rfl
@[simp] theorem State.setReg_out : (s.setReg r v).out = s.out := rfl

@[simp] theorem State.advance_mem : (s.advance n).mem = s.mem := rfl
@[simp] theorem State.advance_regs : (s.advance n).regs = s.regs := rfl
@[simp] theorem State.advance_reg : (s.advance n).reg r = s.reg r := rfl
@[simp] theorem State.advance_pc : (s.advance n).pc = s.pc + n := rfl
@[simp] theorem State.advance_sp : (s.advance n).sp = s.sp := rfl
@[simp] theorem State.advance_fl : (s.advance n).fl = s.fl := rfl
@[simp] theorem State.advance_status : (s.advance n).status = s.status := rfl
@[simp] theorem State.advance_out : (s.advance n).out = s.out := rfl

@[simp] theorem State.emit_mem : (s.emit v).mem = s.mem := rfl
@[simp] theorem State.emit_regs : (s.emit v).regs = s.regs := rfl
@[simp] theorem State.emit_reg : (s.emit v).reg r = s.reg r := rfl
@[simp] theorem State.emit_pc : (s.emit v).pc = s.pc := rfl
@[simp] theorem State.emit_sp : (s.emit v).sp = s.sp := rfl
@[simp] theorem State.emit_fl : (s.emit v).fl = s.fl := rfl
@[simp] theorem State.emit_status : (s.emit v).status = s.status := rfl
@[simp] theorem State.emit_out : (s.emit v).out = s.out ++ [v] := rfl

@[simp] theorem State.halt_mem : s.halt.mem = s.mem := rfl
@[simp] theorem State.halt_regs : s.halt.regs = s.regs := rfl
@[simp] theorem State.halt_reg : s.halt.reg r = s.reg r := rfl
@[simp] theorem State.halt_pc : s.halt.pc = s.pc := rfl
@[simp] theorem State.halt_sp : s.halt.sp = s.sp := rfl
@[simp] theorem State.halt_fl : s.halt.fl = s.fl := rfl
@[simp] theorem State.halt_status : s.halt.status = .halted := rfl
@[simp] theorem State.halt_out : s.halt.out = s.out := rfl

/-- A register reads from the register file alone: an update of any other field leaves it. -/
@[simp] theorem State.reg_mk (m : Memory) (rs : Vector Byte Config.numRegs) (pc sp : Nat) (fl : Bool)
    (st : RunStatus) (o : List Byte) :
    (State.mk m rs pc sp fl st o).reg r = rs[r] := rfl

theorem State.reg_eq : s.reg r = s.regs[r] := rfl

/-- A register just written reads as written (R21). -/
@[simp] theorem State.setReg_reg_same : (s.setReg r v).reg r = v := by
  simp [State.reg, State.setReg]

/-- Writing one register leaves every other (R23). -/
theorem State.setReg_reg_other (h : q ≠ r) : (s.setReg r v).reg q = s.reg q := by
  have h' : r.val ≠ q.val := fun e => h (Fin.ext e.symm)
  simp [State.reg, State.setReg, Vector.getElem_set_ne, h']

end Sys2Proof.Machine
end

