-- ==== Sys2Proof/Laws/Ops.lean ====
section
/-! SUPPORT. One lemma per outcome of each shared operation: what it answers, and exactly when. Proofs about
instructions cite these and do not unfold the operation. -/

namespace Sys2Proof.Machine

/-! ### Ending an instruction -/

@[simp] theorem settle_ok (s t : State) : settle s (.ok t) = .next t := rfl

@[simp] theorem settle_error (s : State) (e : FatalError) :
    settle s (.error e) = .next { s with status := .faulted e } := rfl

theorem raise_eq (e : FatalError) (s : State) : raise e s = .next { s with status := .faulted e } := rfl

/-- An instruction's end is always a next state: its effect whole, or the fatal error alone (R8). -/
theorem settle_cases (s : State) (x : Except FatalError State) :
    (∃ t, x = .ok t ∧ settle s x = .next t) ∨
      ∃ e, x = .error e ∧ settle s x = .next { s with status := .faulted e } := by
  cases x with
  | ok t => exact .inl ⟨t, rfl, rfl⟩
  | error e => exact .inr ⟨e, rfl, rfl⟩

/-! ### Registers -/

theorem regIndex_ok {i : Byte} (h : i.toNat ≤ 7) : regIndex i = .ok ⟨i.toNat, Nat.lt_succ_of_le h⟩ := by
  simp [regIndex, Nat.lt_succ_of_le h]

theorem regIndex_error {i : Byte} (h : 7 < i.toNat) :
    regIndex i = .error (.outOfRangeAccess (.register i)) := by
  simp [regIndex, Nat.not_lt.2 h]

theorem regIndex_eq_ok_iff {i : Byte} {r : Fin Config.numRegs} : regIndex i = .ok r ↔ r.val = i.toNat := by
  unfold regIndex
  split
  · simp [Fin.ext_iff, eq_comm]
  · have hr : r.val < 8 := r.isLt
    rename_i hi
    simp only [reduceCtorEq, false_iff]
    exact fun e => hi (e ▸ hr)

theorem regIndex_eq_error_iff {i : Byte} {e : FatalError} :
    regIndex i = .error e ↔ 7 < i.toNat ∧ e = .outOfRangeAccess (.register i) := by
  by_cases hi : 7 < i.toNat
  · simp [regIndex_error hi, hi, eq_comm]
  · simp [regIndex_ok (Nat.not_lt.1 hi), hi]

theorem readReg_eq (s : State) (i : Byte) : readReg s i = (regIndex i).map s.reg := by
  unfold readReg
  cases regIndex i <;> rfl

theorem writeReg_eq (s : State) (i v : Byte) : writeReg s i v = (regIndex i).map (s.setReg · v) := by
  unfold writeReg
  cases regIndex i <;> rfl

/-! ### Memory accesses -/

theorem cell?_eq_some_iff {addr : Int} {a : Nat} : cell? addr = some a ↔ addr = a ∧ a ≤ 255 := by
  unfold cell?
  split
  · by_cases h : ‹Nat› < 256
    · simp [h]; omega
    · simp [h]; omega
  · simp

theorem cell?_eq_none_iff {addr : Int} : cell? addr = none ↔ addr < 0 ∨ 255 < addr := by
  unfold cell?
  split
  · by_cases h : ‹Nat› < 256
    · simp [h]; omega
    · simp [h]; omega
  · simp

theorem memRead_eq_ok_iff {s : State} {addr : Int} {v : Byte} :
    memRead s addr = .ok v ↔ 0 ≤ addr ∧ addr ≤ 255 ∧ v = s.mem.get addr.toNat := by
  unfold memRead
  split
  · rename_i a h
    obtain ⟨rfl, ha⟩ := cell?_eq_some_iff.1 h
    simp [eq_comm]; omega
  · rename_i h
    have := cell?_eq_none_iff.1 h
    simp; omega

theorem memRead_eq_error_iff {s : State} {addr : Int} {e : FatalError} :
    memRead s addr = .error e ↔ (addr < 0 ∨ 255 < addr) ∧ e = .outOfRangeAccess (.memory addr) := by
  unfold memRead
  split
  · rename_i a h
    obtain ⟨rfl, ha⟩ := cell?_eq_some_iff.1 h
    simp; omega
  · rename_i h
    simp [cell?_eq_none_iff.1 h, eq_comm]

theorem memWrite_eq_ok_iff {s t : State} {addr : Int} {v : Byte} :
    memWrite s addr v = .ok t ↔
      0 ≤ addr ∧ addr ≤ 255 ∧ t = { s with mem := s.mem.put addr.toNat v } := by
  unfold memWrite
  split
  · rename_i a h
    obtain ⟨rfl, ha⟩ := cell?_eq_some_iff.1 h
    simp [eq_comm]; omega
  · rename_i h
    have := cell?_eq_none_iff.1 h
    simp; omega

theorem memWrite_eq_error_iff {s : State} {addr : Int} {v : Byte} {e : FatalError} :
    memWrite s addr v = .error e ↔ (addr < 0 ∨ 255 < addr) ∧ e = .outOfRangeAccess (.memory addr) := by
  unfold memWrite
  split
  · rename_i a h
    obtain ⟨rfl, ha⟩ := cell?_eq_some_iff.1 h
    simp; omega
  · rename_i h
    simp [cell?_eq_none_iff.1 h, eq_comm]

/-- Every memory write keeps the canonical form. -/
theorem memWrite_wf {s t : State} {addr : Int} {v : Byte} (h : memWrite s addr v = .ok t)
    (hm : s.mem.wf = true) : t.mem.wf = true := by
  obtain ⟨h0, h1, rfl⟩ := memWrite_eq_ok_iff.1 h
  exact Memory.wf_put hm (by omega)

/-! ### The stack -/

theorem pushByte_ok {s : State} (v : Byte) (h : 1 ≤ s.sp) (h' : s.sp ≤ 256) :
    pushByte s v = .ok { s with mem := s.mem.put (s.sp - 1) v, sp := s.sp - 1 } := by
  have hr : 0 ≤ pushAddress s ∧ pushAddress s < 256 := by unfold pushAddress; omega
  have ht : (pushAddress s).toNat = s.sp - 1 := by unfold pushAddress; omega
  unfold pushByte
  rw [memWrite_eq_ok_iff.2 ⟨hr.1, by omega, rfl⟩]
  simp [ht, bind, Except.bind, pure, Except.pure]

theorem pushByte_error {s : State} (v : Byte) (h : s.sp = 0 ∨ 256 < s.sp) :
    pushByte s v = .error (.outOfRangeAccess (.memory (pushAddress s))) := by
  unfold pushByte
  rw [memWrite_eq_error_iff.2 ⟨by unfold pushAddress; omega, rfl⟩]
  rfl

theorem popByte_ok {s : State} (h : s.sp ≤ 255) :
    popByte s = .ok (s.mem.get s.sp, { s with sp := s.sp + 1 }) := by
  unfold popByte popAddress
  rw [memRead_eq_ok_iff.2 ⟨by omega, by omega, rfl⟩]
  rfl

theorem popByte_error {s : State} (h : 255 < s.sp) :
    popByte s = .error (.outOfRangeAccess (.memory s.sp)) := by
  unfold popByte popAddress
  rw [memRead_eq_error_iff.2 ⟨by omega, rfl⟩]
  rfl

/-! ### The ALU -/

/-- The sum reduced modulo 256 (R141, decision D1). -/
theorem aluResult_add (x y : Byte) : (aluResult .add x y).toNat = (x.toNat + y.toNat) % 256 := by
  simp [aluResult, BitVec.toNat_add]

/-- The product reduced modulo 256 (R142, decision D1). -/
theorem aluResult_mul (x y : Byte) : (aluResult .mul x y).toNat = (x.toNat * y.toNat) % 256 := by
  simp [aluResult, BitVec.toNat_mul]

/-- The ALU writes one register and nothing else: no flag, no second result (R140). -/
theorem aluApply_ok (op : AluOp) {a b : Byte} (s : State) {ra rb : Fin Config.numRegs} (ha : ra.val = a.toNat)
    (hb : rb.val = b.toNat) :
    aluApply op a b s = .ok (s.setReg ra (aluResult op (s.reg ra) (s.reg rb))) := by
  unfold aluApply
  rw [regIndex_eq_ok_iff.2 ha, regIndex_eq_ok_iff.2 hb]
  rfl

theorem aluApply_error_a (op : AluOp) {a : Byte} (b : Byte) (s : State) (ha : 7 < a.toNat) :
    aluApply op a b s = .error (.outOfRangeAccess (.register a)) := by
  unfold aluApply
  rw [regIndex_error ha]
  rfl

theorem aluApply_error_b (op : AluOp) {a b : Byte} (s : State) (ha : a.toNat ≤ 7) (hb : 7 < b.toNat) :
    aluApply op a b s = .error (.outOfRangeAccess (.register b)) := by
  unfold aluApply
  rw [regIndex_ok ha, regIndex_error hb]
  rfl

/-! ### The fetch -/

/-- The fetch succeeds at 253 and below, with the three bytes from `pc` on (R112). -/
theorem fetch_ok {s : State} (h : s.pc ≤ 253) :
    fetch s = .ok ⟨s.mem.get s.pc, s.mem.get (s.pc + 1), s.mem.get (s.pc + 2)⟩ := by
  have h0 : memRead s s.pc = .ok (s.mem.get s.pc) := memRead_eq_ok_iff.2 ⟨by omega, by omega, rfl⟩
  have h1 : memRead s ((s.pc : Int) + 1) = .ok (s.mem.get (s.pc + 1)) :=
    memRead_eq_ok_iff.2 ⟨by omega, by omega, rfl⟩
  have h2 : memRead s ((s.pc : Int) + 2) = .ok (s.mem.get (s.pc + 2)) :=
    memRead_eq_ok_iff.2 ⟨by omega, by omega, rfl⟩
  unfold fetch
  rw [h0, h1, h2]
  rfl

/-- At 254, 255 and 256 the first read above 255 is of address 256 (R112, decision D7). -/
theorem fetch_error {s : State} (h : 254 ≤ s.pc) (h' : s.pc ≤ 256) :
    fetch s = .error (.outOfRangeAccess (.memory 256)) := by
  have hok : ∀ a : Int, 0 ≤ a → a ≤ 255 → ∃ v, memRead s a = .ok v :=
    fun a h0 h1 => ⟨_, memRead_eq_ok_iff.2 ⟨h0, h1, rfl⟩⟩
  have herr : memRead s 256 = .error (.outOfRangeAccess (.memory 256)) :=
    memRead_eq_error_iff.2 ⟨.inr (by omega), rfl⟩
  unfold fetch
  obtain hp | hp | hp : s.pc = 254 ∨ s.pc = 255 ∨ s.pc = 256 := by omega
  · obtain ⟨v, hv⟩ := hok 254 (by omega) (by omega)
    obtain ⟨w, hw⟩ := hok 255 (by omega) (by omega)
    simp [hp, hv, hw, herr, bind, Except.bind]
  · obtain ⟨v, hv⟩ := hok 255 (by omega) (by omega)
    simp [hp, hv, herr, bind, Except.bind]
  · simp [hp, herr, bind, Except.bind]

/-- A successful fetch gives the decoder's answer for the three bytes, an unknown opcode its fatal error (R113). -/
theorem fetchDecode_ok {s : State} (h : s.pc ≤ 253) :
    fetchDecode s =
      match decode (s.mem.get s.pc) (s.mem.get (s.pc + 1)) (s.mem.get (s.pc + 2)) with
      | .ok i => .ok i
      | .error _ => .error (.unknownOpcode (s.mem.get s.pc)) := by
  unfold fetchDecode
  rw [fetch_ok h]
  rfl

theorem fetchDecode_error {s : State} (h : 254 ≤ s.pc) (h' : s.pc ≤ 256) :
    fetchDecode s = .error (.outOfRangeAccess (.memory 256)) := by
  unfold fetchDecode
  rw [fetch_error h h']
  rfl

/-! ### Placing bytes and loading -/

/-- A load writes memory and nothing else (R202), and only cells that exist, so it keeps the canonical form. -/
theorem loadImage_frame {base : Nat} {image : List Byte} {s t : State} (h : loadImage base image s = .ok t) :
    t = { s with mem := t.mem } ∧ (s.mem.wf = true → t.mem.wf = true) := by
  induction image generalizing base s with
  | nil => cases h; exact ⟨rfl, id⟩
  | cons v vs ih =>
    unfold loadImage at h
    cases hw : memWrite s base v with
    | error e => rw [hw] at h; cases h
    | ok u =>
      rw [hw] at h
      obtain ⟨h1, h2⟩ := ih h
      obtain ⟨-, -, rfl⟩ := memWrite_eq_ok_iff.1 hw
      exact ⟨h1, fun hm => h2 (memWrite_wf hw hm)⟩

/-- Placing a byte changes memory alone, and keeps its canonical form. -/
theorem placeByte_frame (s : State) (addr : Nat) (v : Byte) :
    ∃ m, placeByte s addr v = { s with mem := m } ∧ (s.mem.wf = true → m.wf = true) := by
  unfold placeByte
  cases hw : memWrite s addr v with
  | error e => exact ⟨s.mem, rfl, id⟩
  | ok u =>
    obtain ⟨-, -, rfl⟩ := memWrite_eq_ok_iff.1 hw
    exact ⟨_, rfl, fun hm => memWrite_wf hw hm⟩

/-- Placing bytes changes memory alone, and keeps its canonical form. -/
theorem placeBytes_frame (s : State) (addr : Nat) (bytes : List Byte) :
    ∃ m, placeBytes s addr bytes = { s with mem := m } ∧ (s.mem.wf = true → m.wf = true) := by
  induction bytes generalizing addr s with
  | nil => exact ⟨s.mem, rfl, id⟩
  | cons v vs ih =>
    obtain ⟨m, h1, h2⟩ := placeByte_frame s addr v
    obtain ⟨m', h1', h2'⟩ := ih (placeByte s addr v) (addr + 1)
    exact ⟨m', by simp only [placeBytes, h1'] ; rw [h1], fun hm => h2' (by rw [h1]; exact h2 hm)⟩

end Sys2Proof.Machine
end

