-- ==== Sys2Proof/Laws/PerInstr.lean ====
section
/-! SUPPORT. Statements about every instruction as syntax, one lemma per constructor. -/

namespace Sys2Proof.Laws

/-- An instruction's bytes begin with its opcode, are as many as its length says, one to three (R80), and the decoder's
table has, under that opcode, the same length (R82, R85). -/
def EncodedLength.Statement (i : Instr) : Prop :=
  (encode i).head? = some i.opcode ∧ (encode i).length = i.length ∧ 1 ≤ i.length ∧ i.length ≤ 3 ∧
    (opcodeRow? i.opcode).map (·.length) = some i.length

theorem EncodedLength.hlt : EncodedLength.Statement .hlt :=
  ⟨rfl, rfl, Nat.succ_pos _, Nat.le_of_ble_eq_true rfl, rfl⟩

theorem EncodedLength.prn (a : Byte) : EncodedLength.Statement (.prn a) :=
  ⟨rfl, rfl, Nat.succ_pos _, Nat.le_of_ble_eq_true rfl, rfl⟩

theorem EncodedLength.ldi (a b : Byte) : EncodedLength.Statement (.ldi a b) :=
  ⟨rfl, rfl, Nat.succ_pos _, Nat.le_of_ble_eq_true rfl, rfl⟩

theorem EncodedLength.add (a b : Byte) : EncodedLength.Statement (.add a b) :=
  ⟨rfl, rfl, Nat.succ_pos _, Nat.le_of_ble_eq_true rfl, rfl⟩

theorem EncodedLength.mul (a b : Byte) : EncodedLength.Statement (.mul a b) :=
  ⟨rfl, rfl, Nat.succ_pos _, Nat.le_of_ble_eq_true rfl, rfl⟩

theorem EncodedLength.push (a : Byte) : EncodedLength.Statement (.push a) :=
  ⟨rfl, rfl, Nat.succ_pos _, Nat.le_of_ble_eq_true rfl, rfl⟩

theorem EncodedLength.pop (a : Byte) : EncodedLength.Statement (.pop a) :=
  ⟨rfl, rfl, Nat.succ_pos _, Nat.le_of_ble_eq_true rfl, rfl⟩

theorem EncodedLength.call (a : Byte) : EncodedLength.Statement (.call a) :=
  ⟨rfl, rfl, Nat.succ_pos _, Nat.le_of_ble_eq_true rfl, rfl⟩

theorem EncodedLength.iret : EncodedLength.Statement .iret :=
  ⟨rfl, rfl, Nat.succ_pos _, Nat.le_of_ble_eq_true rfl, rfl⟩

end Sys2Proof.Laws
end

