-- ==== Sys2Proof/Tests/Slice0.lean ====
section
/-! SUPPORT. The model's own tests. Expected results come from spec/: the vectors VE, VL, VA, VM, VS, VT and scenarios of
95_test_vectors.md, and the encodings of 30_encoding.md; each test names its source. The second part shows, for every
obligation with hypotheses, that they can be met together, each clause at a boundary of its range. -/

namespace Sys2Proof.Tests

open Sys2Proof Sys2Proof.Machine

/-! ### Helpers -/

/-- The engine at reset but for `pc`, with bytes from `pc` on. -/
def code (pc : Nat) (bytes : List Byte) : State :=
  placeBytes { State.reset with pc := pc } pc bytes

/-- The same with two registers set. -/
def code2 (pc : Nat) (bytes : List Byte) (r q : Fin 8) (v w : Byte) : State :=
  ((code pc bytes).setReg r v).setReg q w

/-- The next state of an outcome. -/
def after : Result → Option State
  | .next t => some t
  | .fault _ => none
  | .refused _ => none

/-- `pc`, `sp`, `status` and `out` after a step. -/
def seen (s : State) : Option (Nat × Nat × RunStatus × List Byte) :=
  (after (step s)).map (fun t => (t.pc, t.sp, t.status, t.out))

/-- A register after a step. -/
def regAfter (r : Fin 8) (s : State) : Option Byte :=
  (after (step s)).map (fun t => t.reg r)

/-- A cell after a step. -/
def cellAfter (a : Nat) (s : State) : Option Byte :=
  (after (step s)).map (fun t => t.mem.get a)

/-- The step leaves everything but `status`, which is the given fatal error (R178). -/
def faultsAs (e : FatalError) (s : State) : Bool :=
  decide (after (step s) = some { s with status := .faulted e })

/-! ### Well-formedness: an ill-formed term for each check (R25, R83) -/

theorem test_wellFormed_accepts_seven :
    (Instr.add 7 7).wellFormed = true ∧ (Instr.ldi 7 255).wellFormed = true := by decide

theorem test_wellFormed_refuses_index_eight :
    (Instr.prn 8).wellFormed = false ∧ (Instr.ldi 8 0).wellFormed = false ∧ (Instr.add 8 0).wellFormed = false ∧
    (Instr.add 0 8).wellFormed = false ∧ (Instr.mul 255 0).wellFormed = false ∧ (Instr.mul 0 8).wellFormed = false ∧
    (Instr.push 8).wellFormed = false ∧ (Instr.pop 8).wellFormed = false ∧ (Instr.call 8).wellFormed = false := by
  decide

/-! ### Decoding: words written out from the encodings of R81 and R85 -/

theorem test_decode_engine : decode 0b00000001 0xFF 0xFF = .ok .hlt := rfl
theorem test_decode_print : decode 0b01000111 0b00000011 0xFF = .ok (.prn 3) := rfl
theorem test_decode_loadImmediate : decode 0b10000010 0b00000111 0b11001000 = .ok (.ldi 7 200) := rfl
theorem test_decode_add : decode 0b10100000 0b00000010 0b00000011 = .ok (.add 2 3) := rfl
theorem test_decode_mul : decode 0b10100010 0b00000011 0b00000010 = .ok (.mul 3 2) := rfl
theorem test_decode_push : decode 0b01000101 0b00000101 0x00 = .ok (.push 5) := rfl
theorem test_decode_pop : decode 0b01000110 0b00000110 0x00 = .ok (.pop 6) := rfl
theorem test_decode_call : decode 0b01010000 0b00000001 0x00 = .ok (.call 1) := rfl
theorem test_decode_iret : decode 0b00010011 0x00 0x00 = .ok .iret := rfl
/-- An index above 7 decodes (R88). -/
theorem test_decode_keeps_whole_operand : decode 0xA0 0x09 0x08 = .ok (.add 9 8) := rfl
/-- `0x11` is no `RET` (D11), `0x00` no instruction (R87). -/
theorem test_decode_unknown :
    decode 0x11 0 0 = .error (.unknownOpcode 0x11) ∧ decode 0x00 0 0 = .error (.unknownOpcode 0x00) := ⟨rfl, rfl⟩
/-- Scenario A, one instruction after another. -/
theorem test_decodeBytes_scenarioA :
    decodeBytes [0x82, 0x00, 0x08, 0x47, 0x00, 0x01] = .ok (.ldi 0 8, [0x47, 0x00, 0x01]) ∧
    decodeBytes [0x47, 0x00, 0x01] = .ok (.prn 0, [0x01]) ∧ decodeBytes [0x01] = .ok (.hlt, []) ∧
    decodeBytes [0x47] = .error (.truncated 0x47) := ⟨rfl, rfl, rfl, rfl⟩
/-- The first byte is bits 7..0 of a table word, the second 15..8, the third 23..16. -/
theorem test_decodeTableWord :
    decodeTableWord 24 0x080082 = some (.ldi 0 8) ∧ decodeTableWord 8 0x47 = some (.prn 0) ∧
    decodeTableWord 16 0x0345 = some (.push 3) ∧ decodeTableWord 8 0x11 = none := by decide

/-! ### One step at a time -/

/-- VE4: `HLT` at 253 halts there. -/
theorem test_hlt_at_253 : seen (code 253 [0x01]) = some (253, 0xF4, .halted, []) := by decide
/-- VE8: the two bytes after a `HLT` are ignored. -/
theorem test_hlt_ignores_operands : seen (code 5 [0x01, 0xFF, 0xFF]) = some (5, 0xF4, .halted, []) := by decide
/-- VE1: reset memory faults at once. -/
theorem test_reset_step : faultsAs (.unknownOpcode 0x00) State.reset = true := by decide
/-- VE3. -/
theorem test_unknown_opcode : faultsAs (.unknownOpcode 0xFF) (code 0 [0xFF, 0x01, 0x02]) = true := by decide
/-- VE5, VE6, VE7: at 254 and 255 the fetch faults, before the opcode is looked at. -/
theorem test_fetch_top :
    faultsAs (.outOfRangeAccess (.memory 256)) (code 254 [0x01]) = true ∧
    faultsAs (.outOfRangeAccess (.memory 256)) (code 255 [0x01]) = true ∧
    faultsAs (.outOfRangeAccess (.memory 256)) (code 254 [0xFF]) = true ∧
    faultsAs (.outOfRangeAccess (.memory 256)) { State.reset with pc := 256 } = true := by decide
/-- VE11: an engine that has ended has no step. -/
theorem test_ended_has_no_step : after (step { State.reset with status := .halted }) = none := by decide

/-- VL2: `LDI R7, 255` leaves `sp`: `R7` is not the stack pointer. -/
theorem test_ldi_r7 :
    regAfter 7 (code 0 [0x82, 0x07, 0xFF]) = some 255 ∧
    seen (code 0 [0x82, 0x07, 0xFF]) = some (3, 0xF4, .running, []) := by decide
/-- VL4. -/
theorem test_ldi_index_eight : faultsAs (.outOfRangeAccess (.register 8)) (code 0 [0x82, 0x08, 0x01]) = true := by decide
/-- VL6: `PRN R7` of 255. -/
theorem test_prn : seen (code2 0 [0x47, 0x07] 7 7 255 255) = some (2, 0xF4, .running, [255]) := by decide
/-- VL8. -/
theorem test_prn_index_eight : faultsAs (.outOfRangeAccess (.register 8)) (code 0 [0x47, 0x08]) = true := by decide

/-- VA5: 200 + 100 gives 44, and `pc` is 3. -/
theorem test_add_wraps :
    regAfter 0 (code2 0 [0xA0, 0x00, 0x01] 0 1 200 100) = some 44 ∧
    regAfter 1 (code2 0 [0xA0, 0x00, 0x01] 0 1 200 100) = some 100 ∧
    seen (code2 0 [0xA0, 0x00, 0x01] 0 1 200 100) = some (3, 0xF4, .running, []) := by decide
/-- VA7 doubling the destination itself, VA10, VA11: index `a` is checked before index `b`. -/
theorem test_add_same_and_index_order :
    regAfter 0 (code2 0 [0xA0, 0x00, 0x00] 0 0 200 200) = some 144 ∧
    faultsAs (.outOfRangeAccess (.register 8)) (code 0 [0xA0, 0x00, 0x08]) = true ∧
    faultsAs (.outOfRangeAccess (.register 9)) (code 0 [0xA0, 0x09, 0x08]) = true := by decide
/-- VM8, VM7: 44 * 100 gives 48; 255 * 255 gives 1. -/
theorem test_mul_wraps :
    regAfter 0 (code2 0 [0xA2, 0x00, 0x01] 0 1 44 100) = some 48 ∧
    regAfter 0 (code2 0 [0xA2, 0x00, 0x01] 0 1 255 255) = some 1 := by decide
/-- VM9, VM11. -/
theorem test_mul_same_and_index :
    regAfter 0 (code2 0 [0xA2, 0x00, 0x00] 0 0 16 16) = some 0 ∧
    faultsAs (.outOfRangeAccess (.register 8)) (code 0 [0xA2, 0x08, 0x00]) = true := by decide

/-- VS2, VS4: at `sp = 1` the push lands on its own opcode, at 256 on cell 255. -/
theorem test_push_edges :
    cellAfter 0 { code2 0 [0x45, 0x00] 0 0 9 9 with sp := 1 } = some 9 ∧
    seen { code2 0 [0x45, 0x00] 0 0 9 9 with sp := 1 } = some (2, 0, .running, []) ∧
    cellAfter 255 { code2 0 [0x45, 0x00] 0 0 9 9 with sp := 256 } = some 9 ∧
    seen { code2 0 [0x45, 0x00] 0 0 9 9 with sp := 256 } = some (2, 255, .running, []) := by decide
/-- VS3, VS5: the index is checked before the stack address. -/
theorem test_push_faults :
    faultsAs (.outOfRangeAccess (.memory (-1))) { code 0 [0x45, 0x00] with sp := 0 } = true ∧
    faultsAs (.outOfRangeAccess (.register 8)) { code 0 [0x45, 0x08] with sp := 0 } = true := by decide
/-- VS8: a pop at `sp = 255` leaves 256. -/
theorem test_pop_at_255 :
    regAfter 0 { code 0 [0x46, 0x00] with sp := 255, mem := [(0, 0x46), (255, 0x77)] } = some 0x77 ∧
    seen { code 0 [0x46, 0x00] with sp := 255 } = some (2, 256, .running, []) := by decide
/-- VS9, VS10. -/
theorem test_pop_faults :
    faultsAs (.outOfRangeAccess (.memory 256)) { code 0 [0x46, 0x00] with sp := 256 } = true ∧
    faultsAs (.outOfRangeAccess (.register 8)) (code 0 [0x46, 0x08]) = true := by decide

/-- VT1, VT5: the target is the register, the cell the address after the `CALL`. -/
theorem test_call :
    seen (code2 0x10 [0x50, 0x02] 2 2 0x20 0x20) = some (0x20, 0xF3, .running, []) ∧
    cellAfter 0xF3 (code2 0x10 [0x50, 0x02] 2 2 0x20 0x20) = some 0x12 ∧
    cellAfter 0xF3 (code 253 [0x50, 0x00]) = some 255 := by decide
/-- VT6, VT7. -/
theorem test_call_faults :
    faultsAs (.outOfRangeAccess (.memory (-1))) { code 0 [0x50, 0x00] with sp := 0 } = true ∧
    faultsAs (.outOfRangeAccess (.register 8)) (code 0 [0x50, 0x08]) = true := by decide
/-- VT9: `IRET` pops nothing and moves on by one. -/
theorem test_iret :
    after (step { code 0 [0x13] with sp := 0xF3 }) = some { code 0 [0x13] with sp := 0xF3, pc := 1 } := by decide

/-! ### Memory, launch, output, listing -/

/-- Writing 0 removes an entry, so equal memories are equal data. -/
theorem test_memory_canonical :
    Memory.put [(3, 7), (9, 1)] 5 2 = [(3, 7), (5, 2), (9, 1)] ∧ Memory.put [(3, 7), (9, 1)] 3 0 = [(9, 1)] ∧
    Memory.wf [(3, 7), (3, 1)] = false ∧ Memory.wf [(3, 0)] = false ∧ Memory.wf [(256, 1)] = false := by decide
/-- R201, scenario A's image. -/
theorem test_launch : launch [0x82, 0x00, 0x08, 0x47, 0x00, 0x01] =
    some { State.reset with mem := [(0, 0x82), (2, 0x08), (3, 0x47), (5, 0x01)] } := by decide
/-- The instruction placed for the host is the first to run: `LDI R0, 8`. -/
theorem test_withFetchWord : regAfter 0 (State.reset.withFetchWord 24 0x080082) = some 8 := by decide
/-- R132: the numerals `0`, `8`, `11`, `255`. -/
theorem test_output_text :
    { State.reset with out := [0, 8, 11, 255] }.outputLines = ["0", "8", "11", "255"] := by decide
/-- R90, R93. -/
theorem test_disassemble :
    disassemble 9 0 [0x82, 0x00, 0x08, 0x47, 0x08, 0x00, 0x01] =
      [(0, "LDI R0, 8"), (3, "PRN R#8"), (5, ".byte 0"), (6, "HLT")] := by decide

/-! ### Every obligation's hypotheses can be met -/

theorem witness_UnknownOpcodeIsFatal :
    (State.reset.status = .running ∧ State.reset.pc ≤ 253 ∧ State.reset.mem.get State.reset.pc ∉ knownOpcodes) ∧
    ((code 253 [0xFF]).status = .running ∧ (code 253 [0xFF]).pc ≤ 253 ∧ (code 253 [0xFF]).mem.get 253 ∉ knownOpcodes) ∧
    ∃ t, step State.reset = .next t ∧ t.status = .faulted (.unknownOpcode 0x00) :=
  ⟨by decide, by decide, _, rfl, rfl⟩

theorem witness_StepRunsDecodedInstruction :
    (code 253 [0x13]).status = .running ∧ (code 253 [0x13]).pc ≤ 253 ∧
    decode ((code 253 [0x13]).mem.get 253) ((code 253 [0x13]).mem.get 254) ((code 253 [0x13]).mem.get 255) =
      .ok .iret := ⟨by decide, by decide, rfl⟩

theorem witness_FetchFaultsAtTheTop :
    (code 254 []).status = .running ∧ 254 ≤ (code 254 []).pc ∧ (code 254 []).pc ≤ 256 ∧
    (code 256 []).status = .running ∧ 254 ≤ (code 256 []).pc ∧ (code 256 []).pc ≤ 256 := by decide

theorem witness_EndedEngineHasNoStep :
    (∃ s : State, s.status = .halted) ∧ ∃ (s : State) (e : FatalError), s.status = .faulted e :=
  ⟨⟨{ State.reset with status := .halted }, rfl⟩, { State.reset with status := .faulted (.unknownOpcode 0) }, _, rfl⟩

theorem witness_RunningStepHasThreeOutcomes : State.reset.status = .running := rfl

theorem witness_FatalErrorsExactlyByTheirConditions :
    ({ code 0 [0x45, 0x07] with sp := 0 } : State).Inv ∧ ({ code 0 [0x45, 0x07] with sp := 0 } : State).status = .running := by
  decide

/-- Each clause of `FatalCondition` at a boundary. -/
theorem witness_FatalCondition_clauses :
    FatalCondition (code 253 []) (.unknownOpcode 0x00) ∧
    FatalCondition (code 254 [0x01]) (.outOfRangeAccess (.memory 256)) ∧
    FatalCondition (code 0 [0x47, 0x08]) (.outOfRangeAccess (.register 8)) ∧
    FatalCondition (code 0 [0xA0, 0x07, 0x08]) (.outOfRangeAccess (.register 8)) ∧
    FatalCondition { code 0 [0x45, 0x07] with sp := 0 } (.outOfRangeAccess (.memory (-1))) ∧
    FatalCondition { code 0 [0x50, 0x07] with sp := 0 } (.outOfRangeAccess (.memory (-1))) ∧
    FatalCondition { code 0 [0x46, 0x07] with sp := 256 } (.outOfRangeAccess (.memory 256)) :=
  ⟨⟨by decide, rfl, by decide⟩, .inl ⟨by decide, rfl⟩, ⟨by decide, .inl ⟨by decide, rfl, by decide⟩⟩,
    ⟨by decide, .inr ⟨.inl rfl, by decide, rfl, by decide⟩⟩,
    .inr ⟨by decide, by decide, .inl ⟨.inl rfl, rfl, rfl⟩⟩, .inr ⟨by decide, by decide, .inl ⟨.inr rfl, rfl, rfl⟩⟩,
    .inr ⟨by decide, by decide, .inr ⟨rfl, rfl, rfl⟩⟩⟩

theorem witness_UnsupportedOperationNeverRaised : ∃ t, State.reset.status = .running ∧ step State.reset = .next t :=
  ⟨_, rfl, rfl⟩

theorem witness_MemReadIsRangeChecked :
    ((255 : Int) = (255 : Nat) ∧ 255 ≤ 255) ∧ ((-1 : Int) < 0 ∨ 255 < (-1 : Int)) ∧ ((256 : Int) < 0 ∨ 255 < (256 : Int)) := by
  decide

theorem witness_MemWriteSetsOneCell :
    ((0 : Int) ≤ 0 ∧ (0 : Int) ≤ 255) ∧ ((0 : Int) ≤ 255 ∧ (255 : Int) ≤ 255) ∧
    (∃ u, (255 : Int) ≠ 0 ∧ memWrite State.reset 255 1 = .ok u) ∧
    ((-1 : Int) < 0 ∨ 255 < (-1 : Int)) ∧ ((256 : Int) < 0 ∨ 255 < (256 : Int)) :=
  ⟨by decide, by decide, ⟨_, by decide, rfl⟩, by decide, by decide⟩

theorem witness_RegisterIndexDomain : (7 : Fin 8).val = (7 : Byte).toNat ∧ 7 < (8 : Byte).toNat := by decide

theorem witness_FetchSeesStores : ∃ t, memWrite State.reset (255 : Nat) 1 = .ok t ∧ 253 ≤ 253 := ⟨_, rfl, by decide⟩

theorem witness_StepKeepsTheInvariant : ∃ t, State.reset.Inv ∧ step State.reset = .next t := ⟨_, by decide, rfl⟩

theorem witness_LaunchPlacesTheImage :
    (List.replicate 256 (0x13 : Byte)).length ≤ 256 ∧ 256 < (List.replicate 257 (0x13 : Byte)).length :=
  ⟨Nat.le_of_eq List.length_replicate, by rw [List.length_replicate]; decide⟩

theorem witness_PrnEmitsTheRegister : (7 : Fin 8).val = (7 : Byte).toNat := by decide

theorem witness_LdiLoadsTheImmediate : (7 : Fin 8).val = (7 : Byte).toNat ∧ 7 < (8 : Byte).toNat := by decide

theorem witness_AddStoresTheSum : (7 : Fin 8).val = (7 : Byte).toNat ∧ (0 : Fin 8).val = (0 : Byte).toNat := by decide

theorem witness_MulStoresTheProduct : (7 : Fin 8).val = (7 : Byte).toNat ∧ (7 : Fin 8).val = (7 : Byte).toNat := by decide

theorem witness_PushStoresBelowTheTop :
    (7 : Fin 8).val = (7 : Byte).toNat ∧
    (1 ≤ ({ State.reset with sp := 1 } : State).sp ∧ ({ State.reset with sp := 1 } : State).sp ≤ 256) ∧
    (1 ≤ ({ State.reset with sp := 256 } : State).sp ∧ ({ State.reset with sp := 256 } : State).sp ≤ 256) := by decide

theorem witness_PopLoadsTheTop :
    (7 : Fin 8).val = (7 : Byte).toNat ∧ ({ State.reset with sp := 0 } : State).sp ≤ 255 ∧
    ({ State.reset with sp := 255 } : State).sp ≤ 255 := by decide

theorem witness_CallPushesAndJumps :
    (7 : Fin 8).val = (7 : Byte).toNat ∧ 1 ≤ ({ code 253 [] with sp := 1 } : State).sp ∧
    ({ code 253 [] with sp := 1 } : State).sp ≤ 256 ∧ ({ code 253 [] with sp := 1 } : State).pc ≤ 253 := by decide

theorem witness_RegisterIndexFaults : 7 < (8 : Byte).toNat ∧ (7 : Byte).toNat ≤ 7 := by decide

theorem witness_IllFormedExactlyWhenRegisterFault : State.reset.status = .running := rfl

theorem witness_StackAddressFaults :
    (7 : Byte).toNat ≤ 7 ∧ ({ State.reset with sp := 0 } : State).sp = 0 ∧
    ({ State.reset with sp := 256 } : State).sp = 256 := by decide

theorem witness_FlagsCellIsDead : ∃ t, step (code 0 [0xA0, 0, 0]) = .next t ∧ t.status = .running := ⟨_, rfl, rfl⟩

theorem witness_OutputLogOnlyGrowsAndIsNotRead : ∃ t, step (code 0 [0x47, 0x07]) = .next t ∧ t.out = [0] :=
  ⟨_, rfl, rfl⟩

theorem witness_MemoryWrittenOnlyByPushAndCall :
    ∃ t, step (code 3 [0x50, 0x07]) = .next t ∧ t.mem.get 0xF3 ≠ (code 3 [0x50, 0x07]).mem.get 0xF3 :=
  ⟨_, rfl, by decide⟩

theorem witness_RegistersWrittenOnlyByTheirWriters :
    ∃ t, step (code 0 [0x82, 0x07, 0x01]) = .next t ∧ t.reg 7 ≠ (code 0 [0x82, 0x07, 0x01]).reg 7 :=
  ⟨_, rfl, by decide⟩

theorem witness_StackPointerMovesByOne : ∃ t, step (code 0 [0x46, 0x07]) = .next t ∧ t.sp = 0xF5 := ⟨_, rfl, rfl⟩

theorem witness_ProgramCounterAfterEachStep :
    ∃ t, (code 253 [0x13]).status = .running ∧ step (code 253 [0x13]) = .next t ∧ t.status = .running :=
  ⟨_, rfl, rfl, rfl⟩

theorem witness_LdiThenPrnEmitsTheImmediate :
    let s := code 250 [0x82, 0x07, 0xFF, 0x47, 0x07]
    s.status = .running ∧ s.pc ≤ 250 ∧ (7 : Byte).toNat ≤ 7 ∧ s.mem.get s.pc = 0x82 ∧ s.mem.get (s.pc + 1) = 7 ∧
      s.mem.get (s.pc + 2) = 0xFF ∧ s.mem.get (s.pc + 3) = 0x47 ∧ s.mem.get (s.pc + 4) = 7 := by decide

theorem witness_PushThenPopMovesTheRegister :
    let s := { code 251 [0x45, 0x03, 0x46, 0x07] with sp := 1 }
    s.status = .running ∧ s.pc ≤ 251 ∧ 1 ≤ s.sp ∧ s.sp ≤ 256 ∧ (3 : Fin 8).val = (3 : Byte).toNat ∧
      (7 : Fin 8).val = (7 : Byte).toNat ∧ s.mem.get s.pc = 0x45 ∧ s.mem.get (s.pc + 1) = 3 ∧
      s.mem.get (s.pc + 2) = 0x46 ∧ s.mem.get (s.pc + 3) = 7 ∧ s.sp - 1 ≠ s.pc + 2 ∧ s.sp - 1 ≠ s.pc + 3 := by decide

theorem witness_CallPopCallComesBack :
    let s := (placeBytes (code 0 [0x50, 0x01]) 251 [0x46, 0x02, 0x50, 0x02]).setReg 1 251
    s.status = .running ∧ s.pc ≤ 253 ∧ 1 ≤ s.sp ∧ s.sp ≤ 256 ∧ (1 : Fin 8).val = (1 : Byte).toNat ∧
      (2 : Fin 8).val = (2 : Byte).toNat ∧ (s.reg 1).toNat = 251 ∧ 251 ≤ 251 ∧ s.mem.get s.pc = 0x50 ∧
      s.mem.get (s.pc + 1) = 1 ∧ s.mem.get 251 = 0x46 ∧ s.mem.get (251 + 1) = 2 ∧ s.mem.get (251 + 2) = 0x50 ∧
      s.mem.get (251 + 3) = 2 ∧ ∀ k, k ≤ 3 → s.sp - 1 ≠ 251 + k := by decide

theorem witness_StraightLineRunEnds :
    straightRun 1 { State.reset with pc := 254 } = true ∧ straightRun 2 (code 253 [0x13]) = true := by decide

end Sys2Proof.Tests
end

namespace Sys2Proof.Machine

/-! # What a step can do

`Completes` and `Rejects` say once, over the fields of the state, what each instruction does and when it faults;
`exec_eq_next_iff` and `step_eq_next_iff` tie them to the model. A rule of the whole machine is then a case analysis of
`Completes` and `Faults`. -/

/-! ### Access to a register by an index byte -/

theorem readReg_ok (s : State) {i : Byte} {r : Fin Config.numRegs} (h : r.val = i.toNat) :
    readReg s i = .ok (s.reg r) := by
  rw [readReg_eq, regIndex_eq_ok_iff.2 h]
  rfl

theorem readReg_error (s : State) {i : Byte} (h : 7 < i.toNat) :
    readReg s i = .error (.outOfRangeAccess (.register i)) := by
  rw [readReg_eq, regIndex_error h]
  rfl

theorem writeReg_ok (s : State) {i : Byte} (v : Byte) {r : Fin Config.numRegs} (h : r.val = i.toNat) :
    writeReg s i v = .ok (s.setReg r v) := by
  rw [writeReg_eq, regIndex_eq_ok_iff.2 h]
  rfl

theorem writeReg_error (s : State) {i : Byte} (v : Byte) (h : 7 < i.toNat) :
    writeReg s i v = .error (.outOfRangeAccess (.register i)) := by
  rw [writeReg_eq, regIndex_error h]
  rfl

/-- An index byte selects a register or is above 7 (R25). -/
theorem exists_reg_or_seven_lt (i : Byte) : (∃ r : Fin Config.numRegs, r.val = i.toNat) ∨ 7 < i.toNat := by
  by_cases h : 7 < i.toNat
  · exact .inr h
  · exact .inl ⟨⟨i.toNat, Nat.lt_succ_of_le (Nat.not_lt.1 h)⟩, rfl⟩

theorem toNat_le_seven_of_reg {i : Byte} {r : Fin Config.numRegs} (h : r.val = i.toNat) : i.toNat ≤ 7 :=
  h ▸ Nat.le_of_lt_succ r.isLt

/-- The one register a write can change is the one written. -/
theorem State.eq_of_setReg_reg_ne {s : State} {q r : Fin Config.numRegs} {v : Byte}
    (h : (s.setReg q v).reg r ≠ s.reg r) : r = q :=
  by_contra fun hne => h (State.setReg_reg_other s q r v hne)

/-! ### Completion and rejection -/

/-- Instruction `i`, executed at `s`, completes with the state `t`. -/
inductive Completes (s : State) : Instr → State → Prop
  | hlt : Completes s .hlt s.halt
  | prn {a : Byte} {r : Fin Config.numRegs} (ha : r.val = a.toNat) :
      Completes s (.prn a) ((s.emit (s.reg r)).advance 2)
  | ldi {a b : Byte} {r : Fin Config.numRegs} (ha : r.val = a.toNat) :
      Completes s (.ldi a b) ((s.setReg r b).advance 3)
  | add {a b : Byte} {ra rb : Fin Config.numRegs} (ha : ra.val = a.toNat) (hb : rb.val = b.toNat) :
      Completes s (.add a b) ((s.setReg ra (aluResult .add (s.reg ra) (s.reg rb))).advance 3)
  | mul {a b : Byte} {ra rb : Fin Config.numRegs} (ha : ra.val = a.toNat) (hb : rb.val = b.toNat) :
      Completes s (.mul a b) ((s.setReg ra (aluResult .mul (s.reg ra) (s.reg rb))).advance 3)
  | push {a : Byte} {r : Fin Config.numRegs} (ha : r.val = a.toNat) (hlo : 1 ≤ s.sp) (hhi : s.sp ≤ 256) :
      Completes s (.push a)
        { s with mem := s.mem.put (s.sp - 1) (s.reg r), sp := s.sp - 1, pc := s.pc + 2 }
  | pop {a : Byte} {r : Fin Config.numRegs} (ha : r.val = a.toNat) (hsp : s.sp ≤ 255) :
      Completes s (.pop a) { s.setReg r (s.mem.get s.sp) with sp := s.sp + 1, pc := s.pc + 2 }
  | call {a : Byte} {r : Fin Config.numRegs} (ha : r.val = a.toNat) (hlo : 1 ≤ s.sp) (hhi : s.sp ≤ 256) :
      Completes s (.call a)
        { s with mem := s.mem.put (s.sp - 1) (returnAddress s.pc), sp := s.sp - 1, pc := (s.reg r).toNat }
  | iret : Completes s .iret (s.advance 1)

/-- Instruction `i`, executed at `s`, raises the fatal error: index `a`, index `b`, stack address, in the order of the
checks (R115). -/
inductive Rejects (s : State) : Instr → FatalError → Prop
  | indexA {i : Instr} {a b : Byte} (ha : 7 < a.toNat)
      (hi : i ∈ [Instr.prn a, .ldi a b, .add a b, .mul a b, .push a, .pop a, .call a]) :
      Rejects s i (.outOfRangeAccess (.register a))
  | indexB {i : Instr} {a b : Byte} (ha : a.toNat ≤ 7) (hb : 7 < b.toNat) (hi : i ∈ [Instr.add a b, .mul a b]) :
      Rejects s i (.outOfRangeAccess (.register b))
  | pushAddress {i : Instr} {a : Byte} (ha : a.toNat ≤ 7) (hsp : s.sp = 0 ∨ 256 < s.sp)
      (hi : i ∈ [Instr.push a, .call a]) : Rejects s i (.outOfRangeAccess (.memory (pushAddress s)))
  | popAddress {a : Byte} (ha : a.toNat ≤ 7) (hsp : 255 < s.sp) :
      Rejects s (.pop a) (.outOfRangeAccess (.memory s.sp))

theorem Completes.exec_eq {s t : State} {i : Instr} (h : Completes s i t) : exec i s = .next t := by
  cases h with
  | hlt => rfl
  | prn ha => simp only [exec, execPrn, readReg_ok s ha]; rfl
  | ldi ha => simp only [exec, execLdi, writeReg_ok s _ ha]; rfl
  | add ha hb => simp only [exec, execAdd, aluApply_ok .add s ha hb]; rfl
  | mul ha hb => simp only [exec, execMul, aluApply_ok .mul s ha hb]; rfl
  | push ha hlo hhi => simp only [exec, execPush, readReg_ok s ha, pushByte_ok _ hlo hhi]; rfl
  | pop ha hsp => simp only [exec, execPop, regIndex_eq_ok_iff.2 ha, popByte_ok hsp]; rfl
  | call ha hlo hhi => simp only [exec, execCall, readReg_ok s ha, pushByte_ok _ hlo hhi]; rfl
  | iret => rfl

theorem Rejects.exec_eq {s : State} {i : Instr} {e : FatalError} (h : Rejects s i e) :
    exec i s = .next (s.faultedBy e) := by
  cases h with
  | @indexA _ a b ha hi =>
    simp only [List.mem_cons, List.not_mem_nil, or_false] at hi
    obtain rfl | rfl | rfl | rfl | rfl | rfl | rfl := hi
    · simp only [exec, execPrn, readReg_error s ha]; rfl
    · simp only [exec, execLdi, writeReg_error s _ ha]; rfl
    · simp only [exec, execAdd, aluApply_error_a .add b s ha]; rfl
    · simp only [exec, execMul, aluApply_error_a .mul b s ha]; rfl
    · simp only [exec, execPush, readReg_error s ha]; rfl
    · simp only [exec, execPop, regIndex_error ha]; rfl
    · simp only [exec, execCall, readReg_error s ha]; rfl
  | indexB ha hb hi =>
    simp only [List.mem_cons, List.not_mem_nil, or_false] at hi
    obtain rfl | rfl := hi
    · simp only [exec, execAdd, aluApply_error_b .add s ha hb]; rfl
    · simp only [exec, execMul, aluApply_error_b .mul s ha hb]; rfl
  | @pushAddress _ a ha hsp hi =>
    have hr : readReg s a = .ok (s.reg ⟨a.toNat, Nat.lt_succ_of_le ha⟩) := readReg_ok s rfl
    simp only [List.mem_cons, List.not_mem_nil, or_false] at hi
    obtain rfl | rfl := hi
    · simp only [exec, execPush, hr, pushByte_error _ hsp]; rfl
    · simp only [exec, execCall, hr, pushByte_error _ hsp]; rfl
  | popAddress ha hsp => simp only [exec, execPop, regIndex_ok ha, popByte_error hsp]; rfl

/-- Byte `a` of an instruction that has one selects a register, or the instruction is rejected. -/
theorem reg_or_rejects (s : State) {i : Instr} {a b : Byte}
    (hi : i ∈ [Instr.prn a, .ldi a b, .add a b, .mul a b, .push a, .pop a, .call a]) :
    (∃ r : Fin Config.numRegs, r.val = a.toNat) ∨ ∃ e, Rejects s i e :=
  (exists_reg_or_seven_lt a).imp_right fun ha => ⟨_, .indexA ha hi⟩

/-- Both index bytes of an ALU instruction select registers, or the instruction is rejected. -/
theorem regs_or_rejects (s : State) {i : Instr} {a b : Byte} (hi : i ∈ [Instr.add a b, .mul a b]) :
    (∃ ra rb : Fin Config.numRegs, ra.val = a.toNat ∧ rb.val = b.toNat) ∨ ∃ e, Rejects s i e := by
  have hsub : [Instr.add a b, .mul a b] ⊆ [.prn a, .ldi a b, .add a b, .mul a b, .push a, .pop a, .call a] := by simp
  obtain ⟨ra, ha⟩ | hrej := reg_or_rejects s (hsub hi)
  · obtain ⟨rb, hb⟩ | hb := exists_reg_or_seven_lt b
    · exact .inl ⟨ra, rb, ha, hb⟩
    · exact .inr ⟨_, .indexB (toNat_le_seven_of_reg ha) hb hi⟩
  · exact .inr hrej

/-- A pushing instruction has a register and a cell to push to, or is rejected. -/
theorem push_or_rejects (s : State) {i : Instr} {a : Byte} (hi : i ∈ [Instr.push a, .call a]) :
    (∃ r : Fin Config.numRegs, r.val = a.toNat ∧ 1 ≤ s.sp ∧ s.sp ≤ 256) ∨ ∃ e, Rejects s i e := by
  have hsub : [Instr.push a, .call a] ⊆ [.prn a, .ldi a 0, .add a 0, .mul a 0, .push a, .pop a, .call a] := by simp
  obtain ⟨r, ha⟩ | hrej := reg_or_rejects s (hsub hi)
  · by_cases hsp : s.sp = 0 ∨ 256 < s.sp
    · exact .inr ⟨_, .pushAddress (toNat_le_seven_of_reg ha) hsp hi⟩
    · exact .inl ⟨r, ha, by omega, by omega⟩
  · exact .inr hrej

/-- Every instruction completes or is rejected: no third thing happens at execution. -/
theorem completes_or_rejects (s : State) (i : Instr) : (∃ t, Completes s i t) ∨ ∃ e, Rejects s i e := by
  cases i with
  | hlt => exact .inl ⟨_, .hlt⟩
  | prn a => exact (reg_or_rejects s (b := 0) (by simp)).imp_left fun ⟨_, ha⟩ => ⟨_, .prn ha⟩
  | ldi a b => exact (reg_or_rejects s (b := b) (by simp)).imp_left fun ⟨_, ha⟩ => ⟨_, .ldi ha⟩
  | add a b => exact (regs_or_rejects s (by simp)).imp_left fun ⟨_, _, ha, hb⟩ => ⟨_, .add ha hb⟩
  | mul a b => exact (regs_or_rejects s (by simp)).imp_left fun ⟨_, _, ha, hb⟩ => ⟨_, .mul ha hb⟩
  | push a => exact (push_or_rejects s (by simp)).imp_left fun ⟨_, ha, hlo, hhi⟩ => ⟨_, .push ha hlo hhi⟩
  | pop a =>
    obtain ⟨r, ha⟩ | hrej := reg_or_rejects s (i := .pop a) (a := a) (b := 0) (by simp)
    · by_cases hsp : 255 < s.sp
      · exact .inr ⟨_, .popAddress (toNat_le_seven_of_reg ha) hsp⟩
      · exact .inl ⟨_, .pop ha (Nat.not_lt.1 hsp)⟩
    · exact .inr hrej
  | call a => exact (push_or_rejects s (by simp)).imp_left fun ⟨_, ha, hlo, hhi⟩ => ⟨_, .call ha hlo hhi⟩
  | iret => exact .inl ⟨_, .iret⟩

/-- What an instruction can do: complete, or fault with `status` alone changed. -/
theorem exec_eq_next_iff {s t : State} {i : Instr} :
    exec i s = .next t ↔ Completes s i t ∨ ∃ e, Rejects s i e ∧ t = s.faultedBy e := by
  constructor
  · intro h
    obtain ⟨u, hu⟩ | ⟨e, he⟩ := completes_or_rejects s i
    · cases hu.exec_eq.symm.trans h
      exact .inl hu
    · cases he.exec_eq.symm.trans h
      exact .inr ⟨e, he, rfl⟩
  · rintro (h | ⟨e, he, rfl⟩)
    · exact h.exec_eq
    · exact he.exec_eq

/-! ### The step -/

theorem stopped?_eq_none_iff {s : State} : stopped? s = none ↔ s.status = .running := by
  unfold stopped?
  split <;> simp_all

/-- The step from `s` meets the fatal error `e`, on the way to an instruction or in executing it (R115). -/
def Faults (s : State) (e : FatalError) : Prop :=
  fetchDecode s = .error e ∨ ∃ i, fetchDecode s = .ok i ∧ Rejects s i e

/-- A step of a running engine is the fatal error of the fetch and decode, or the instruction's execution (R111). -/
theorem step_of_running {s : State} (h : s.status = .running) :
    (∃ e, fetchDecode s = .error e ∧ step s = .next (s.faultedBy e)) ∨
      ∃ i, fetchDecode s = .ok i ∧ step s = exec i s := by
  unfold step
  rw [stopped?_eq_none_iff.2 h]
  cases hf : fetchDecode s with
  | error e => exact .inl ⟨e, rfl, rfl⟩
  | ok i => exact .inr ⟨i, rfl, rfl⟩

theorem running_of_step {s t : State} (h : step s = .next t) : s.status = .running := by
  unfold step at h
  cases hs : stopped? s with
  | none => exact stopped?_eq_none_iff.1 hs
  | some f => simp [hs] at h

/-- What a step can do: the fetched instruction completes, or a fatal error changes `status` alone. -/
theorem step_eq_next_iff {s t : State} :
    step s = .next t ↔
      s.status = .running ∧
        ((∃ i, fetchDecode s = .ok i ∧ Completes s i t) ∨ ∃ e, Faults s e ∧ t = s.faultedBy e) := by
  constructor
  · intro h
    have hrun := running_of_step h
    refine ⟨hrun, ?_⟩
    obtain ⟨e, hf, hstep⟩ | ⟨i, hf, hstep⟩ := step_of_running hrun
    · cases hstep.symm.trans h
      exact .inr ⟨e, .inl hf, rfl⟩
    · obtain hc | ⟨e, he, rfl⟩ := exec_eq_next_iff.1 (hstep.symm.trans h)
      · exact .inl ⟨i, hf, hc⟩
      · exact .inr ⟨e, .inr ⟨i, hf, he⟩, rfl⟩
  · rintro ⟨hrun, h⟩
    obtain ⟨e, hf, hstep⟩ | ⟨i, hf, hstep⟩ := step_of_running hrun
    · obtain ⟨i, hf', -⟩ | ⟨e', hf' | ⟨i, hf', -⟩, rfl⟩ := h <;> cases hf.symm.trans hf'
      exact hstep
    · rw [hstep, exec_eq_next_iff]
      obtain ⟨j, hf', hc⟩ | ⟨e', hf' | ⟨j, hf', he⟩, rfl⟩ := h <;> cases hf.symm.trans hf'
      · exact .inl hc
      · exact .inr ⟨e', he, rfl⟩

/-- The case analysis for rules about what a step changes. -/
theorem step_cases {s t : State} (h : step s = .next t) :
    (∃ i, fetchDecode s = .ok i ∧ Completes s i t) ∨ ∃ e, t = s.faultedBy e :=
  (step_eq_next_iff.1 h).2.imp_right fun ⟨e, _, ht⟩ => ⟨e, ht⟩

/-! # The rules of the state -/

/-! ### The flags cell (R32) -/

theorem Completes.fl_eq {s t : State} {i : Instr} (h : Completes s i t) : t.fl = s.fl := by
  cases h <;> rfl

/-- The flags cell is not fetched. -/
theorem fetchDecode_withFl (s : State) (f : Bool) : fetchDecode { s with fl := f } = fetchDecode s := rfl

theorem Completes.withFl {s t : State} {i : Instr} (h : Completes s i t) (f : Bool) :
    Completes { s with fl := f } i { t with fl := f } := by
  cases h with
  | hlt => exact .hlt
  | prn ha => exact .prn ha
  | ldi ha => exact .ldi ha
  | add ha hb => exact .add ha hb
  | mul ha hb => exact .mul ha hb
  | push ha hlo hhi => exact .push ha hlo hhi
  | pop ha hsp => exact .pop ha hsp
  | call ha hlo hhi => exact .call ha hlo hhi
  | iret => exact .iret

theorem Rejects.withFl {s : State} {i : Instr} {e : FatalError} (h : Rejects s i e) (f : Bool) :
    Rejects { s with fl := f } i e := by
  cases h with
  | indexA ha hi => exact .indexA ha hi
  | indexB ha hb hi => exact .indexB ha hb hi
  | pushAddress ha hsp hi => exact .pushAddress ha hsp hi
  | popAddress ha hsp => exact .popAddress ha hsp

theorem Faults.withFl {s : State} {e : FatalError} (h : Faults s e) (f : Bool) : Faults { s with fl := f } e :=
  h.imp id fun ⟨i, hf, he⟩ => ⟨i, hf, he.withFl f⟩

theorem step_fl_eq {s t : State} (h : step s = .next t) : t.fl = s.fl := by
  obtain ⟨i, -, hc⟩ | ⟨e, rfl⟩ := step_cases h
  · exact hc.fl_eq
  · rfl

theorem step_withFl {s t : State} (h : step s = .next t) (f : Bool) :
    step { s with fl := f } = .next { t with fl := f } := by
  obtain ⟨hrun, ⟨i, hf, hc⟩ | ⟨e, he, rfl⟩⟩ := step_eq_next_iff.1 h
  · exact step_eq_next_iff.2 ⟨hrun, .inl ⟨i, (fetchDecode_withFl s f).trans hf, hc.withFl f⟩⟩
  · exact step_eq_next_iff.2 ⟨hrun, .inr ⟨e, he.withFl f, rfl⟩⟩

/-- Settles O31: no case of `Completes`, `Rejects` or the fetch mentions the flags cell. -/
theorem flagsCellIsDead : Obligations.FlagsCellIsDead :=
  ⟨rfl, fun _ _ h => ⟨step_fl_eq h, step_withFl h⟩⟩

/-! ### The general registers (R24, R25) -/

/-- An instruction that changes a register is one of the four writers, and the register is its byte `a`'s. -/
theorem Completes.writer_of_reg_ne {s t : State} {i : Instr} (h : Completes s i t) {r : Fin Config.numRegs}
    (hne : t.reg r ≠ s.reg r) :
    ∃ a b : Byte, r.val = a.toNat ∧ (i = .ldi a b ∨ i = .add a b ∨ i = .mul a b ∨ i = .pop a) := by
  cases h with
  | @ldi a b _ ha => exact ⟨a, b, State.eq_of_setReg_reg_ne hne ▸ ha, .inl rfl⟩
  | @add a b _ _ ha => exact ⟨a, b, State.eq_of_setReg_reg_ne hne ▸ ha, .inr (.inl rfl)⟩
  | @mul a b _ _ ha => exact ⟨a, b, State.eq_of_setReg_reg_ne hne ▸ ha, .inr (.inr (.inl rfl))⟩
  | @pop a _ ha => exact ⟨a, 0, State.eq_of_setReg_reg_ne hne ▸ ha, .inr (.inr (.inr rfl))⟩
  | hlt | prn | push | call | iret => exact absurd rfl hne

/-- Settles O34: a fatal error changes no register, and the completions are `Completes.writer_of_reg_ne`. -/
theorem registersWrittenOnlyByTheirWriters : Obligations.RegistersWrittenOnlyByTheirWriters := by
  intro s t r h hne
  obtain ⟨i, hf, hc⟩ | ⟨e, rfl⟩ := step_cases h
  · obtain ⟨a, b, hr, hi⟩ := hc.writer_of_reg_ne hne
    exact ⟨a, b, hr, by simpa [hf] using hi⟩
  · exact absurd rfl hne

/-- Settles O13: an index byte up to 7 is its register, by the laws of `regIndex`, and any other is refused. -/
theorem registerIndexDomain : Obligations.RegisterIndexDomain := by
  intro s i v
  refine ⟨fun r hr => ⟨readReg_ok s hr, s.setReg r v, writeReg_ok s v hr, State.setReg_reg_same s r v, ?_, rfl⟩,
    fun hi => ⟨readReg_error s hi, writeReg_error s v hi⟩⟩
  intro q hq
  exact State.setReg_reg_other s r q v fun e => hq (e ▸ hr)

/-! ### The stack pointer (R30) -/

/-- An instruction that completes leaves `sp`, or pushes and makes it one less, or pops and makes it one more. -/
theorem Completes.sp_cases {s t : State} {i : Instr} (h : Completes s i t) :
    t.sp = s.sp ∨ (t.sp + 1 = s.sp ∧ ∃ a, i = .push a ∨ i = .call a) ∨ (t.sp = s.sp + 1 ∧ ∃ a, i = .pop a) := by
  cases h with
  | push _ hlo => exact .inr (.inl ⟨Nat.sub_add_cancel hlo, _, .inl rfl⟩)
  | call _ hlo => exact .inr (.inl ⟨Nat.sub_add_cancel hlo, _, .inr rfl⟩)
  | pop => exact .inr (.inr ⟨rfl, _, rfl⟩)
  | hlt | prn | ldi | add | mul | iret => exact .inl rfl

/-- Settles O35: a fatal error leaves `sp`, and the completions are `Completes.sp_cases`. -/
theorem stackPointerMovesByOne : Obligations.StackPointerMovesByOne := by
  intro s t h
  obtain ⟨i, hf, hc⟩ | ⟨e, rfl⟩ := step_cases h
  · simpa [hf] using hc.sp_cases
  · exact .inl rfl

end Sys2Proof.Machine

namespace Sys2Proof.Machine

/-! # Memory

A read after a write, in terms of `MemRead` and `MemWrite`; what the loader leaves in each cell; which instructions
write memory. -/

/-! ### MemRead and MemWrite (R52, R53) -/

/-- The one cell a write can change is the one written. -/
theorem Memory.eq_of_get_put_ne {m : Memory} {a x : Nat} {v : Byte} (h : (m.put a v).get x ≠ m.get x) : x = a :=
  by_contra fun hne => h (Memory.get_put_other m a v hne)

/-- A write inside memory puts its byte in the cell and changes nothing else. -/
theorem memWrite_ok (s : State) {addr : Int} (v : Byte) (hlo : 0 ≤ addr) (hhi : addr ≤ 255) :
    memWrite s addr v = .ok { s with mem := s.mem.put addr.toNat v } :=
  memWrite_eq_ok_iff.2 ⟨hlo, hhi, rfl⟩

/-- A cell just written reads as written. -/
theorem memRead_memWrite_same {s t : State} {addr : Int} {v : Byte} (h : memWrite s addr v = .ok t) :
    memRead t addr = .ok v := by
  obtain ⟨hlo, hhi, rfl⟩ := memWrite_eq_ok_iff.1 h
  exact memRead_eq_ok_iff.2 ⟨hlo, hhi, (Memory.get_put_same _ _ _).symm⟩

/-- A write changes no cell but the one at its address. -/
theorem memWrite_bytesKeptBut {s t : State} {addr : Int} {v : Byte} (h : memWrite s addr v = .ok t) :
    s.BytesKeptBut t addr := by
  obtain ⟨hlo, -, rfl⟩ := memWrite_eq_ok_iff.1 h
  intro x hx
  exact Memory.get_put_other _ _ _ (by omega)

/-- A byte that can be read stays through a write elsewhere. -/
theorem memRead_memWrite_other {s t : State} {addr other : Int} {v w : Byte} (hr : memRead s addr = .ok v)
    (hne : other ≠ addr) (hw : memWrite s other w = .ok t) : memRead t addr = .ok v := by
  obtain ⟨hlo, hhi, rfl⟩ := memRead_eq_ok_iff.1 hr
  have hkept := memWrite_bytesKeptBut hw addr.toNat (by omega)
  exact memRead_eq_ok_iff.2 ⟨hlo, hhi, hkept.symm⟩

/-- Settles O11: the two outcomes of `memRead`. -/
theorem memReadIsRangeChecked : Obligations.MemReadIsRangeChecked := by
  intro s addr
  refine ⟨?_, fun h => memRead_eq_error_iff.2 ⟨h, rfl⟩⟩
  rintro a rfl ha
  exact memRead_eq_ok_iff.2 ⟨by omega, by omega, rfl⟩

/-- Settles O12: the two outcomes of `memWrite`, and the reads after it. -/
theorem memWriteSetsOneCell : Obligations.MemWriteSetsOneCell := by
  intro s addr v
  refine ⟨fun hlo hhi => ?_, fun h => memWrite_eq_error_iff.2 ⟨h, rfl⟩⟩
  have hw := memWrite_ok s v hlo hhi
  have hr := memRead_memWrite_same hw
  exact ⟨_, hw, hr, memWrite_bytesKeptBut hw, rfl, fun _ _ _ hne hu => memRead_memWrite_other hr hne hu⟩

/-! ### A fetch after a store (R54, R60) -/

/-- Settles O14: the fetch latches the three cells from `pc` on, and each reads as `Memory.get_put` says. -/
theorem fetchSeesStores : Obligations.FetchSeesStores := by
  intro s t addr v pc hw hpc
  obtain ⟨-, -, rfl⟩ := memWrite_eq_ok_iff.1 hw
  exact ⟨_, fetch_ok hpc, Memory.get_put _ _ _ _, Memory.get_put _ _ _ _, Memory.get_put _ _ _ _⟩

/-! ### The loader (R66, R201 to R203) -/

/-- Loading goes on after the first byte's write where that byte has a cell. -/
theorem loadImage_cons {base : Nat} (h : base ≤ 255) (v : Byte) (vs : List Byte) (s : State) :
    loadImage base (v :: vs) s = loadImage (base + 1) vs { s with mem := s.mem.put base v } := by
  have hw : memWrite s base v = .ok { s with mem := s.mem.put base v } :=
    memWrite_ok s v (by omega) (by omega)
  simp only [loadImage, hw]
  rfl

/-- An image that fits loads: byte `k` stands in cell `base + k`, and every cell below `base` or beyond the image is as
it was. -/
theorem loadImage_ok {base : Nat} {image : List Byte} (s : State) (h : base + image.length ≤ 256) :
    ∃ t, loadImage base image s = .ok t ∧
      (∀ k, t.mem.get (base + k) = image.getD k (s.mem.get (base + k))) ∧
      ∀ x, x < base → t.mem.get x = s.mem.get x := by
  induction image generalizing base s with
  | nil => exact ⟨s, rfl, fun _ => rfl, fun _ _ => rfl⟩
  | cons v vs ih =>
    rw [List.length_cons] at h
    obtain ⟨t, hload, hat, hbelow⟩ := ih (base := base + 1) { s with mem := s.mem.put base v } (by omega)
    refine ⟨t, (loadImage_cons (by omega) v vs s).trans hload, fun k => ?_, fun x hx => ?_⟩
    · cases k with
      | zero => exact (hbelow base (Nat.lt_succ_self base)).trans (Memory.get_put_same _ _ _)
      | succ k =>
        have hk := hat k
        rw [Memory.get_put_other _ _ _ (by omega), Nat.add_assoc, Nat.add_comm 1 k] at hk
        exact hk
    · exact (hbelow x (by omega)).trans (Memory.get_put_other _ _ _ (by omega))

/-- An image that runs past the last cell does not load. -/
theorem loadImage_error {base : Nat} {image : List Byte} (s : State) (hbase : base ≤ 256)
    (h : 256 < base + image.length) : ∃ e, loadImage base image s = .error e := by
  induction image generalizing base s with
  | nil => exact absurd h (Nat.not_lt.2 hbase)
  | cons v vs ih =>
    by_cases hcell : base ≤ 255
    · rw [loadImage_cons hcell]
      exact ih _ (by omega) (by rw [List.length_cons] at h; omega)
    · have hw : memWrite s base v = .error (.outOfRangeAccess (.memory base)) :=
        memWrite_eq_error_iff.2 ⟨by omega, rfl⟩
      exact ⟨_, by simp only [loadImage, hw]; rfl⟩

theorem launch_eq_some {image : List Byte} {s : State} (h : loadImage 0 image State.reset = .ok s) :
    launch image = some s := by
  simp only [launch, h]

theorem launch_eq_none {image : List Byte} {e : FatalError} (h : loadImage 0 image State.reset = .error e) :
    launch image = none := by
  simp only [launch, h]

/-- Settles O18: the loader's cells by `loadImage_ok` from reset memory, all else by `loadImage_frame`. -/
theorem launchPlacesTheImage : Obligations.LaunchPlacesTheImage := by
  intro image
  constructor
  · intro hlen
    obtain ⟨s, hload, hat, -⟩ := loadImage_ok (base := 0) State.reset (by omega : 0 + image.length ≤ 256)
    obtain ⟨hframe, hwf⟩ := loadImage_frame hload
    have hpc : s.pc = 0 := by rw [hframe]; rfl
    have hsp : s.sp = 0xF4 := by rw [hframe]; rfl
    refine ⟨s, launch_eq_some hload, fun k => ?_, by rw [hframe], hwf Memory.wf_reset, by omega, by omega⟩
    have hk := hat k
    rwa [Nat.zero_add] at hk
  · intro hlen
    obtain ⟨e, hload⟩ := loadImage_error (base := 0) State.reset (Nat.zero_le _) (by omega : 256 < 0 + image.length)
    exact launch_eq_none hload

/-! ### The writers of memory (R57) -/

/-- The address a push writes, where it has a cell to write. -/
theorem pushAddress_eq {s : State} (h : 1 ≤ s.sp) : pushAddress s = (s.sp - 1 : Nat) := by
  unfold pushAddress
  omega

/-- An instruction that changes a cell is a `PUSH` or a `CALL`, and the cell is the one it pushes to. -/
theorem Completes.pusher_of_get_ne {s t : State} {i : Instr} (h : Completes s i t) {x : Nat}
    (hne : t.mem.get x ≠ s.mem.get x) : (∃ a, i = .push a ∨ i = .call a) ∧ (x : Int) = pushAddress s := by
  cases h with
  | @push a _ _ hlo => exact ⟨⟨a, .inl rfl⟩, by rw [Memory.eq_of_get_put_ne hne, pushAddress_eq hlo]⟩
  | @call a _ _ hlo => exact ⟨⟨a, .inr rfl⟩, by rw [Memory.eq_of_get_put_ne hne, pushAddress_eq hlo]⟩
  | hlt | prn | ldi | add | mul | pop | iret => exact absurd rfl hne

/-- Settles O33: a fatal error changes no cell, and the completions are `Completes.pusher_of_get_ne`. -/
theorem memoryWrittenOnlyByPushAndCall : Obligations.MemoryWrittenOnlyByPushAndCall := by
  intro s t addr h hne
  obtain ⟨i, hf, hc⟩ | ⟨e, rfl⟩ := step_cases h
  · simpa [hf] using hc.pusher_of_get_ne hne
  · exact absurd rfl hne

end Sys2Proof.Machine

namespace Sys2Proof.Machine

/-! # Which bytes are instructions, and which instructions name registers

A fatal error of a running engine is read off its next state (`Faults.of_step`); the decoder's part of it is an unknown
opcode (R87, R171), and the register part of an instruction's rejection is ill-formedness (R83, R173). -/

/-! ### A completed instruction is no fatal error -/

theorem Completes.status_ne_faulted {s t : State} {i : Instr} (h : Completes s i t) (hrun : s.status = .running)
    (e : FatalError) : t.status ≠ .faulted e := by
  have hkept : s.status ≠ .faulted e := by simp [hrun]
  cases h with
  | hlt => simp
  | prn | ldi | add | mul | push | pop | call | iret => exact hkept

/-- An instruction of a running engine faults exactly when it is rejected. -/
theorem exec_eq_faultedBy_iff {s : State} (hrun : s.status = .running) {i : Instr} {e : FatalError} :
    exec i s = .next (s.faultedBy e) ↔ Rejects s i e := by
  refine ⟨fun h => ?_, Rejects.exec_eq⟩
  obtain hc | ⟨e', he, heq⟩ := exec_eq_next_iff.1 h
  · exact absurd rfl (hc.status_ne_faulted hrun e)
  · cases congrArg State.status heq
    exact he

/-- A `FAULTED` status after a step says which fatal error the step met. -/
theorem Faults.of_step {s t : State} {e : FatalError} (h : step s = .next t) (ht : t.status = .faulted e) :
    Faults s e := by
  obtain ⟨hrun, ⟨i, -, hc⟩ | ⟨e', he, rfl⟩⟩ := step_eq_next_iff.1 h
  · exact absurd ht (hc.status_ne_faulted hrun e)
  · cases ht
    exact he

/-! ### Unknown opcodes (R87, R171) -/

/-- The nine opcodes of R171 are those of the decoder's table. -/
theorem knownOpcodes_eq : knownOpcodes = opcodeTable.map OpcodeRow.opcode := rfl

/-- Decoding fails on a byte that is none of the nine opcodes, and for no other reason (R87, R88). -/
theorem decode_eq_error_iff {ir a b : Byte} {e : DecodeError} :
    decode ir a b = .error e ↔ ir ∉ knownOpcodes ∧ e = .unknownOpcode ir := by
  have hnone : opcodeRow? ir = none ↔ ir ∉ knownOpcodes := by
    simp [opcodeRow?_none, knownOpcodes_eq]
  obtain ⟨row, hrow, hd⟩ | ⟨hrow, hd⟩ := decode_cases ir a b
  · simp [hd, ← hnone, hrow]
  · simp [hd, ← hnone, hrow, eq_comm]

/-- Above 253 the fetch meets an address outside memory, whatever the bytes are (R112, decision D7). -/
theorem fetchDecode_error_of_lt {s : State} (h : 253 < s.pc) :
    ∃ addr, fetchDecode s = .error (.outOfRangeAccess (.memory addr)) := by
  by_cases htop : s.pc ≤ 256
  · exact ⟨256, fetchDecode_error h htop⟩
  · have hread : memRead s s.pc = .error (.outOfRangeAccess (.memory s.pc)) :=
      memRead_eq_error_iff.2 ⟨by omega, rfl⟩
    exact ⟨s.pc, by unfold fetchDecode fetch; rw [hread]; rfl⟩

/-- Fetch and decode raise `UnknownOpcode` exactly for a byte at `pc` that is none of the nine opcodes (R113). -/
theorem fetchDecode_eq_unknownOpcode_iff {s : State} {ir : Byte} :
    fetchDecode s = .error (.unknownOpcode ir) ↔ FatalCondition s (.unknownOpcode ir) := by
  unfold FatalCondition
  by_cases hpc : s.pc ≤ 253
  · rw [fetchDecode_ok hpc]
    cases hd : decode (s.mem.get s.pc) (s.mem.get (s.pc + 1)) (s.mem.get (s.pc + 2)) with
    | ok i =>
      have hknown : s.mem.get s.pc ∈ knownOpcodes := by
        by_contra hk
        cases hd.symm.trans (decode_eq_error_iff.2 ⟨hk, rfl⟩)
      simp only [reduceCtorEq, false_iff]
      rintro ⟨-, rfl, hk⟩
      exact hk hknown
    | error e =>
      obtain ⟨hk, -⟩ := decode_eq_error_iff.1 hd
      constructor
      · rintro ⟨⟩
        exact ⟨hpc, rfl, hk⟩
      · rintro ⟨-, rfl, -⟩
        rfl
  · obtain ⟨addr, hf⟩ := fetchDecode_error_of_lt (Nat.not_le.1 hpc)
    simp [hf, hpc]

/-- Executing an instruction raises no other fatal error than an access out of range. -/
theorem Rejects.outOfRange {s : State} {i : Instr} {e : FatalError} (h : Rejects s i e) :
    ∃ info, e = .outOfRangeAccess info := by
  cases h with
  | indexA | indexB | pushAddress | popAddress => exact ⟨_, rfl⟩

/-- A step meets `UnknownOpcode` under its condition of R171 and no other. -/
theorem faults_unknownOpcode_iff {s : State} {ir : Byte} :
    Faults s (.unknownOpcode ir) ↔ FatalCondition s (.unknownOpcode ir) := by
  rw [← fetchDecode_eq_unknownOpcode_iff]
  refine ⟨?_, .inl⟩
  rintro (h | ⟨i, -, he⟩)
  · exact h
  · obtain ⟨info, hinfo⟩ := he.outOfRange
    cases hinfo

/-- Settles O4: both directions are `faults_unknownOpcode_iff`; the count is over the nine literal bytes. -/
theorem unknownOpcodeIsFatal : Obligations.UnknownOpcodeIsFatal := by
  refine ⟨fun s hrun hpc hk => ?_, fun s t ir _ h ht => ?_, by decide, by decide⟩
  · exact step_eq_next_iff.2 ⟨hrun, .inr ⟨_, faults_unknownOpcode_iff.2 ⟨hpc, rfl, hk⟩, rfl⟩⟩
  · exact (faults_unknownOpcode_iff.1 (Faults.of_step h ht)).2

/-! ### Register operands (R83, R173) -/

theorem regByteOk_eq_false_iff {a : Byte} : regByteOk a = false ↔ 7 < a.toNat := by
  simp only [regByteOk, decide_eq_false_iff_not, Nat.not_lt]
  exact Iff.rfl

/-- An instruction whose byte `a` is above 7 names a register that does not exist. -/
theorem wellFormed_eq_false_of_indexA {i : Instr} {a b : Byte} (ha : 7 < a.toNat)
    (hi : i ∈ [Instr.prn a, .ldi a b, .add a b, .mul a b, .push a, .pop a, .call a]) : i.wellFormed = false := by
  have ha := regByteOk_eq_false_iff.2 ha
  simp only [List.mem_cons, List.not_mem_nil, or_false] at hi
  obtain rfl | rfl | rfl | rfl | rfl | rfl | rfl := hi <;> simp [Instr.wellFormed, ha]

/-- So does an ALU instruction whose byte `b` is above 7. -/
theorem wellFormed_eq_false_of_indexB {i : Instr} {a b : Byte} (hb : 7 < b.toNat)
    (hi : i ∈ [Instr.add a b, .mul a b]) : i.wellFormed = false := by
  have hb := regByteOk_eq_false_iff.2 hb
  simp only [List.mem_cons, List.not_mem_nil, or_false] at hi
  obtain rfl | rfl := hi <;> simp [Instr.wellFormed, hb]

/-- An ALU instruction with an index byte above 7 is rejected: for byte `a` where that is above 7, else for byte `b`
(R115). -/
theorem Rejects.register_of_alu (s : State) {i : Instr} {a b : Byte} (hi : i ∈ [Instr.add a b, .mul a b])
    (h : (regByteOk a && regByteOk b) = false) : ∃ k, Rejects s i (.outOfRangeAccess (.register k)) := by
  have hsub : [Instr.add a b, .mul a b] ⊆ [.prn a, .ldi a b, .add a b, .mul a b, .push a, .pop a, .call a] := by simp
  rw [Bool.and_eq_false_iff, regByteOk_eq_false_iff, regByteOk_eq_false_iff] at h
  by_cases ha : 7 < a.toNat
  · exact ⟨a, .indexA ha (hsub hi)⟩
  · exact ⟨b, .indexB (Nat.not_lt.1 ha) (h.resolve_left ha) hi⟩

/-- The ill-formed instructions are those rejected for a register index, whatever the state. -/
theorem wellFormed_eq_false_iff (s : State) (i : Instr) :
    i.wellFormed = false ↔ ∃ k, Rejects s i (.outOfRangeAccess (.register k)) := by
  constructor
  · intro h
    cases i with
    | hlt | iret => cases h
    | add a b | mul a b => exact Rejects.register_of_alu s (by simp) h
    | ldi a b => exact ⟨a, .indexA (b := b) (regByteOk_eq_false_iff.1 h) (by simp)⟩
    | prn a | push a | pop a | call a => exact ⟨a, .indexA (b := 0) (regByteOk_eq_false_iff.1 h) (by simp)⟩
  · rintro ⟨k, h⟩
    cases h with
    | indexA ha hi => exact wellFormed_eq_false_of_indexA ha hi
    | indexB _ hb hi => exact wellFormed_eq_false_of_indexB hb hi

/-- Settles O29: a fault of `exec` is a rejection, and ill-formedness is rejection for a register index. -/
theorem illFormedExactlyWhenRegisterFault : Obligations.IllFormedExactlyWhenRegisterFault := by
  intro s i hrun
  simp only [exec_eq_faultedBy_iff hrun, wellFormed_eq_false_iff s]

end Sys2Proof.Machine

namespace Sys2Proof.Machine

/-! # The engine

A step runs the decoded instruction; what a completed instruction does to `pc`; the invariant of every step. -/

/-! ### From fetch to execution (R111 to R114) -/

/-- Only at 253 and below does a step come to an instruction (R112, decision D7). -/
theorem pc_le_of_fetchDecode {s : State} {i : Instr} (h : fetchDecode s = .ok i) : s.pc ≤ 253 := by
  by_contra hpc
  obtain ⟨addr, hf⟩ := fetchDecode_error_of_lt (Nat.not_le.1 hpc)
  cases hf.symm.trans h

theorem fetchDecode_of_decode {s : State} {i : Instr} (hpc : s.pc ≤ 253)
    (h : decode (s.mem.get s.pc) (s.mem.get (s.pc + 1)) (s.mem.get (s.pc + 2)) = .ok i) : fetchDecode s = .ok i := by
  rw [fetchDecode_ok hpc, h]

theorem step_of_fetchDecode {s : State} {i : Instr} (hrun : s.status = .running) (h : fetchDecode s = .ok i) :
    step s = exec i s := by
  obtain ⟨e, hf, -⟩ | ⟨j, hf, hstep⟩ := step_of_running hrun <;> cases hf.symm.trans h
  exact hstep

/-- Settles O5: the fetch succeeds at this `pc`, and the step is the execution of what it decodes. -/
theorem stepRunsDecodedInstruction : Obligations.StepRunsDecodedInstruction :=
  fun _ _ hrun hpc hd => step_of_fetchDecode hrun (fetchDecode_of_decode hpc hd)

/-! ### The program counter (R28, R114) -/

/-- A completed instruction halts where it stands, or leaves `status` and either jumps to a register's byte, as `CALL`
does, or moves on by its length. -/
theorem Completes.pc_cases {s t : State} {i : Instr} (h : Completes s i t) :
    (t.status = .halted ∧ t.pc = s.pc) ∨
      (t.status = s.status ∧
        ((∃ (a : Byte) (r : Fin 8), i = .call a ∧ r.val = a.toNat ∧ t.pc = (s.reg r).toNat) ∨
         ((∀ a, i ≠ .call a) ∧ t.pc = s.pc + i.length))) := by
  cases h with
  | hlt => exact .inl ⟨rfl, rfl⟩
  | @call a r ha => exact .inr ⟨rfl, .inl ⟨a, r, rfl, ha, rfl⟩⟩
  | prn | ldi | add | mul | push | pop | iret => exact .inr ⟨rfl, .inr ⟨nofun, rfl⟩⟩

/-- Settles O36: a fatal error leaves `pc`, and the completions are `Completes.pc_cases`. -/
theorem programCounterAfterEachStep : Obligations.ProgramCounterAfterEachStep := by
  intro s t hrun h
  obtain ⟨i, hf, hc⟩ | ⟨e, rfl⟩ := step_cases h
  · obtain ⟨hhalt, hpc⟩ | ⟨hkept, hpc⟩ := hc.pc_cases
    · exact ⟨fun _ => hpc, fun ht => nomatch hhalt.symm.trans ht⟩
    · exact ⟨fun ht => absurd (hkept.trans hrun) ht, fun _ => ⟨i, hf, hpc⟩⟩
  · exact ⟨fun _ => rfl, nofun⟩

/-! ### The invariant (R20, R27, R31) -/

/-- No instruction is longer than three bytes (R80). -/
theorem length_le_three (i : Instr) : i.length ≤ 3 := by
  cases i <;> simp [Instr.length]

/-- A push writes a cell that exists, and no other instruction writes memory, so the canonical form is kept. -/
theorem Completes.mem_wf {s t : State} {i : Instr} (h : Completes s i t) (hwf : s.mem.wf = true) :
    t.mem.wf = true := by
  cases h with
  | push _ hlo hhi | call _ hlo hhi =>
    have hcell : s.sp - 1 < 256 := by omega
    exact Memory.wf_put hwf hcell
  | hlt | prn | ldi | add | mul | pop | iret => exact hwf

/-- From 253, where the last instruction can be fetched, the longest instruction leads to 256; a register's byte is
below that. -/
theorem Completes.pc_le {s t : State} {i : Instr} (h : Completes s i t) (hpc : s.pc ≤ 253) : t.pc ≤ 256 := by
  obtain ⟨-, ht⟩ | ⟨-, ⟨a, r, -, -, ht⟩ | ⟨-, ht⟩⟩ := h.pc_cases
  · omega
  · have hbyte : (s.reg r).toNat < 256 := (s.reg r).isLt
    omega
  · have hlen := length_le_three i
    omega

/-- Only `POP` raises `sp`, and it reads a cell before it does. -/
theorem Completes.sp_le {s t : State} {i : Instr} (h : Completes s i t) (hsp : s.sp ≤ 256) : t.sp ≤ 256 := by
  cases h with
  | push | call => exact (Nat.sub_le _ _).trans hsp
  | pop _ hcell => exact Nat.succ_le_succ hcell
  | hlt | prn | ldi | add | mul | iret => exact hsp

/-- An instruction that was fetched keeps the invariant when it completes. -/
theorem Completes.inv {s t : State} {i : Instr} (h : Completes s i t) (hpc : s.pc ≤ 253) (hs : s.Inv) : t.Inv := by
  obtain ⟨hwf, -, hsp⟩ := hs
  exact ⟨h.mem_wf hwf, h.pc_le hpc, h.sp_le hsp⟩

/-- Settles O17: a fatal error changes no part of the invariant, and the completions are `Completes.inv`. -/
theorem stepKeepsTheInvariant : Obligations.StepKeepsTheInvariant := by
  intro s t hs h
  obtain ⟨i, hf, hc⟩ | ⟨e, rfl⟩ := step_cases h
  · exact hc.inv (pc_le_of_fetchDecode hf) hs
  · exact hs

end Sys2Proof.Machine

namespace Sys2Proof.Machine

/-! # The register-immediate and print instructions

What `PRN` and `LDI` do, and that the output log is written by `PRN` alone and read by nothing. -/

/-! ### PRN and LDI (R130, R131) -/

/-- Writing the register an index byte selects leaves every other. -/
theorem State.setReg_regsKeptBut (s : State) {i : Byte} (v : Byte) {r : Fin Config.numRegs} (h : r.val = i.toNat) :
    s.RegsKeptBut (s.setReg r v) i :=
  fun q hq => State.setReg_reg_other s r q v fun e => hq (e ▸ h)

/-- Settles O20: the completion of `PRN` emits, then advances, and neither touches another field. -/
theorem prnEmitsTheRegister : Obligations.PrnEmitsTheRegister :=
  fun _ _ _ ha => ⟨_, (Completes.prn ha).exec_eq, rfl, rfl, fun _ => rfl, fun _ => rfl, rfl, rfl, rfl⟩

theorem decode_prn (a b : Byte) : decode 0x47 a b = .ok (.prn a) := rfl

theorem decode_ldi (a b : Byte) : decode 0x82 a b = .ok (.ldi a b) := rfl

/-- Settles O21: an index up to 7 completes with one register written, and one above 7 is rejected. -/
theorem ldiLoadsTheImmediate : Obligations.LdiLoadsTheImmediate := by
  intro s a b
  refine ⟨⟨decode_ldi a b, rfl⟩, fun r ha => ?_, fun ha => ?_⟩
  · exact ⟨_, (Completes.ldi ha).exec_eq, State.setReg_reg_same s r b, State.setReg_regsKeptBut s b ha, rfl,
      fun _ => rfl, rfl, rfl, rfl, rfl⟩
  · exact (Rejects.indexA (b := b) ha (by simp)).exec_eq

/-! ### The output log (R34, R130) -/

/-- The output log is not fetched. -/
theorem fetchDecode_withOut (s : State) (log : List Byte) : fetchDecode { s with out := log } = fetchDecode s := rfl

/-- An instruction that completes is a `PRN` and emits its register's byte, or leaves the log and completes alike with
any other. -/
theorem Completes.prn_or_out_eq {s t : State} {i : Instr} (h : Completes s i t) :
    (∃ (a : Byte) (r : Fin Config.numRegs), i = .prn a ∧ r.val = a.toNat ∧ t = (s.emit (s.reg r)).advance 2) ∨
      (t.out = s.out ∧ ∀ log : List Byte, Completes { s with out := log } i { t with out := log }) := by
  cases h with
  | @prn a r ha => exact .inl ⟨a, r, rfl, ha, rfl⟩
  | hlt => exact .inr ⟨rfl, fun _ => .hlt⟩
  | ldi ha => exact .inr ⟨rfl, fun _ => .ldi ha⟩
  | add ha hb => exact .inr ⟨rfl, fun _ => .add ha hb⟩
  | mul ha hb => exact .inr ⟨rfl, fun _ => .mul ha hb⟩
  | push ha hlo hhi => exact .inr ⟨rfl, fun _ => .push ha hlo hhi⟩
  | pop ha hsp => exact .inr ⟨rfl, fun _ => .pop ha hsp⟩
  | call ha hlo hhi => exact .inr ⟨rfl, fun _ => .call ha hlo hhi⟩
  | iret => exact .inr ⟨rfl, fun _ => .iret⟩

theorem Rejects.withOut {s : State} {i : Instr} {e : FatalError} (h : Rejects s i e) (log : List Byte) :
    Rejects { s with out := log } i e := by
  cases h with
  | indexA ha hi => exact .indexA ha hi
  | indexB ha hb hi => exact .indexB ha hb hi
  | pushAddress ha hsp hi => exact .pushAddress ha hsp hi
  | popAddress ha hsp => exact .popAddress ha hsp

theorem Faults.withOut {s : State} {e : FatalError} (h : Faults s e) (log : List Byte) :
    Faults { s with out := log } e :=
  h.imp id fun ⟨i, hf, he⟩ => ⟨i, hf, he.withOut log⟩

/-- A running engine whose fetched instruction completes takes that step (R111). -/
theorem Completes.step_eq {s t : State} {i : Instr} (h : Completes s i t) (hrun : s.status = .running)
    (hf : fetchDecode s = .ok i) : step s = .next t :=
  (step_of_fetchDecode hrun hf).trans h.exec_eq

/-- A step executes a `PRN` and emits its register's byte, or leaves the log and goes alike with any other. -/
theorem step_prn_or_out_eq {s t : State} (h : step s = .next t) :
    (∃ (a : Byte) (r : Fin Config.numRegs),
        fetchDecode s = .ok (.prn a) ∧ r.val = a.toNat ∧ t = (s.emit (s.reg r)).advance 2) ∨
      (t.out = s.out ∧ ∀ log : List Byte, step { s with out := log } = .next { t with out := log }) := by
  obtain ⟨hrun, ⟨i, hf, hc⟩ | ⟨e, he, rfl⟩⟩ := step_eq_next_iff.1 h
  · obtain ⟨a, r, rfl, ha, ht⟩ | ⟨hout, hany⟩ := hc.prn_or_out_eq
    · exact .inl ⟨a, r, hf, ha, ht⟩
    · exact .inr ⟨hout, fun log => (hany log).step_eq hrun ((fetchDecode_withOut s log).trans hf)⟩
  · exact .inr ⟨rfl, fun log => step_eq_next_iff.2 ⟨hrun, .inr ⟨e, he.withOut log, rfl⟩⟩⟩

/-- Settles O32: a `PRN` appends its one byte to whatever log stands there, and every other step appends nothing
(`step_prn_or_out_eq`). -/
theorem outputLogOnlyGrowsAndIsNotRead : Obligations.OutputLogOnlyGrowsAndIsNotRead := by
  intro s t h
  obtain ⟨a, r, hf, ha, rfl⟩ | ⟨hout, hany⟩ := step_prn_or_out_eq h
  · have hrun := running_of_step h
    refine ⟨[s.reg r], rfl, .inr ⟨a, r, hf, ha, rfl⟩, fun log => ?_⟩
    exact (Completes.prn ha).step_eq hrun ((fetchDecode_withOut s log).trans hf)
  · exact ⟨[], by simp [hout], .inl rfl, by simpa using hany⟩

/-! ### LDI, then PRN of the same register (R130, R131) -/

theorem step_ldi {s : State} {a b : Byte} {r : Fin Config.numRegs} (hrun : s.status = .running) (hpc : s.pc ≤ 253)
    (ha : r.val = a.toNat) (hop : s.mem.get s.pc = 0x82) (hbyteA : s.mem.get (s.pc + 1) = a)
    (hbyteB : s.mem.get (s.pc + 2) = b) : step s = .next ((s.setReg r b).advance 3) :=
  (Completes.ldi ha).step_eq hrun (fetchDecode_of_decode hpc (by rw [hop, hbyteA, hbyteB, decode_ldi]))

theorem step_prn {s : State} {a : Byte} {r : Fin Config.numRegs} (hrun : s.status = .running) (hpc : s.pc ≤ 253)
    (ha : r.val = a.toNat) (hop : s.mem.get s.pc = 0x47) (hbyteA : s.mem.get (s.pc + 1) = a) :
    step s = .next ((s.emit (s.reg r)).advance 2) :=
  (Completes.prn ha).step_eq hrun (fetchDecode_of_decode hpc (by rw [hop, hbyteA, decode_prn]))

/-- Settles O37: the `LDI` writes the register and no cell, so the `PRN` behind it is fetched as it stood and emits the
immediate. -/
theorem ldiThenPrnEmitsTheImmediate : Obligations.LdiThenPrnEmitsTheImmediate := by
  intro s a v hrun hpc ha hldi hldiA hldiB hprn hprnA
  obtain ⟨r, hr⟩ : ∃ r : Fin Config.numRegs, r.val = a.toNat :=
    (exists_reg_or_seven_lt a).resolve_right (Nat.not_lt.2 ha)
  have hstepLdi := step_ldi hrun (by omega) hr hldi hldiA hldiB
  have hstepPrn : step ((s.setReg r v).advance 3) = _ := step_prn hrun (Nat.add_le_add_right hpc 3) hr hprn hprnA
  exact ⟨_, _, hstepLdi, hstepPrn, by simp, rfl, hrun⟩

end Sys2Proof.Machine

namespace Sys2Proof.Machine

/-! # The ALU

What `ADD` and `MUL` do, and that no step reports an ALU tag it does not know. -/

/-! ### ADD and MUL (R140 to R143) -/

/-- Writing the register an index byte selects, then moving `pc` on, changes nothing else. -/
theorem State.setReg_advance_frame (s : State) {i : Byte} (v : Byte) (n : Nat) {r : Fin Config.numRegs}
    (h : r.val = i.toNat) :
    s.RegsKeptBut ((s.setReg r v).advance n) i ∧ ((s.setReg r v).advance n).pc = s.pc + n ∧
      s.BytesKept ((s.setReg r v).advance n) ∧ ((s.setReg r v).advance n).sp = s.sp ∧
      s.RestKept ((s.setReg r v).advance n) :=
  ⟨State.setReg_regsKeptBut s v h, rfl, fun _ => rfl, rfl, rfl, rfl, rfl⟩

/-- Settles O22: the completion of `ADD` writes the ALU's sum, which is reduced by `aluResult_add`. -/
theorem addStoresTheSum : Obligations.AddStoresTheSum := by
  intro s a b ra rb ha hb
  refine ⟨_, (Completes.add ha hb).exec_eq, ?_, State.setReg_advance_frame s _ 3 ha⟩
  rw [State.advance_reg, State.setReg_reg_same, aluResult_add]

/-- Settles O23: the completion of `MUL` writes the ALU's product, which is reduced by `aluResult_mul`. -/
theorem mulStoresTheProduct : Obligations.MulStoresTheProduct := by
  intro s a b ra rb ha hb
  refine ⟨_, (Completes.mul ha hb).exec_eq, ?_, State.setReg_advance_frame s _ 3 ha⟩
  rw [State.advance_reg, State.setReg_reg_same, aluResult_mul]

/-! ### No unsupported operation (R145, R174) -/

/-- Fetch and decode raise an unknown opcode or an access out of range, and no third kind (R112, R113). -/
theorem fetchDecode_error_cases {s : State} {e : FatalError} (h : fetchDecode s = .error e) :
    (∃ ir, e = .unknownOpcode ir) ∨ ∃ info, e = .outOfRangeAccess info := by
  by_cases hpc : s.pc ≤ 253
  · rw [fetchDecode_ok hpc] at h
    cases hd : decode (s.mem.get s.pc) (s.mem.get (s.pc + 1)) (s.mem.get (s.pc + 2)) with
    | ok i => simp [hd] at h
    | error e' =>
      rw [hd] at h
      cases h
      exact .inl ⟨_, rfl⟩
  · obtain ⟨addr, hf⟩ := fetchDecode_error_of_lt (Nat.not_le.1 hpc)
    cases hf.symm.trans h
    exact .inr ⟨_, rfl⟩

/-- The fatal errors of a step are of these two kinds: execution adds accesses out of range alone. -/
theorem Faults.kind_cases {s : State} {e : FatalError} (h : Faults s e) :
    (∃ ir, e = .unknownOpcode ir) ∨ ∃ info, e = .outOfRangeAccess info := by
  obtain hf | ⟨i, -, hrej⟩ := h
  · exact fetchDecode_error_cases hf
  · exact .inr hrej.outOfRange

/-- Settles O10: a `FAULTED` status is a fatal error the step met, and `Faults.kind_cases` names the two kinds. -/
theorem unsupportedOperationNeverRaised : Obligations.UnsupportedOperationNeverRaised := by
  intro s t op _ h ht
  obtain ⟨ir, he⟩ | ⟨info, he⟩ := (Faults.of_step h ht).kind_cases
  · cases he
  · cases he

end Sys2Proof.Machine

namespace Sys2Proof.Machine

/-! # The stack

What a push and a pop leave, and the two idioms of the spec that put them in sequence. `PUSH` and `CALL` share the push:
they differ in the byte and in the next `pc`. -/

/-! ### The states after a push and after a pop (R150) -/

/-- `s` with `v` pushed and `pc` moved to `pc'`. -/
def State.afterPush (s : State) (v : Byte) (pc' : Nat) : State :=
  { s with mem := s.mem.put (s.sp - 1) v, sp := s.sp - 1, pc := pc' }

/-- `s` with the top of the stack popped into register `r`, past a `POP`. -/
def State.afterPop (s : State) (r : Fin Config.numRegs) : State :=
  { s.setReg r (s.mem.get s.sp) with sp := s.sp + 1, pc := s.pc + 2 }

section

variable (s : State) (v : Byte) (pc' : Nat) (r : Fin Config.numRegs)

@[simp] theorem State.afterPush_reg : (s.afterPush v pc').reg r = s.reg r := rfl
@[simp] theorem State.afterPush_pc : (s.afterPush v pc').pc = pc' := rfl
@[simp] theorem State.afterPush_sp : (s.afterPush v pc').sp = s.sp - 1 := rfl
@[simp] theorem State.afterPush_status : (s.afterPush v pc').status = s.status := rfl

@[simp] theorem State.afterPop_mem : (s.afterPop r).mem = s.mem := rfl
@[simp] theorem State.afterPop_pc : (s.afterPop r).pc = s.pc + 2 := rfl
@[simp] theorem State.afterPop_sp : (s.afterPop r).sp = s.sp + 1 := rfl
@[simp] theorem State.afterPop_status : (s.afterPop r).status = s.status := rfl

/-- The pushed byte stands in the cell below the old top. -/
@[simp] theorem State.afterPush_get_top : (s.afterPush v pc').mem.get (s.sp - 1) = v :=
  Memory.get_put_same _ _ _

theorem State.afterPush_get_other {x : Nat} (h : s.sp - 1 ≠ x) : (s.afterPush v pc').mem.get x = s.mem.get x :=
  Memory.get_put_other _ _ _ h.symm

@[simp] theorem State.afterPop_reg_same : (s.afterPop r).reg r = s.mem.get s.sp :=
  State.setReg_reg_same s r _

theorem State.afterPop_regsKeptBut {i : Byte} (h : r.val = i.toNat) : s.RegsKeptBut (s.afterPop r) i :=
  State.setReg_regsKeptBut s _ h

/-- What a push changes and what it leaves, over the model's push address. -/
theorem State.afterPush_frame (h : 1 ≤ s.sp) :
    (∀ addr : Nat, (addr : Int) = pushAddress s → (s.afterPush v pc').mem.get addr = v) ∧
      s.BytesKeptBut (s.afterPush v pc') (pushAddress s) ∧ (s.afterPush v pc').sp + 1 = s.sp ∧
      s.RegsKept (s.afterPush v pc') ∧ s.RestKept (s.afterPush v pc') := by
  rw [pushAddress_eq h]
  refine ⟨fun x hx => ?_, fun x hx => ?_, Nat.sub_add_cancel h, fun _ => rfl, rfl, rfl, rfl⟩
  · rw [Int.ofNat_inj.1 hx, State.afterPush_get_top]
  · exact State.afterPush_get_other s v pc' fun e => hx (congrArg _ e.symm)

/-- A pop after a push gives back the pushed byte. -/
theorem State.afterPush_afterPop_reg : ((s.afterPush v pc').afterPop r).reg r = v := by
  rw [State.afterPop_reg_same, State.afterPush_sp, State.afterPush_get_top]

/-- A pop after a push leaves every cell but the pushed one as it was before both. -/
theorem State.afterPush_afterPop_get_other {x : Nat} (h : s.sp - 1 ≠ x) :
    ((s.afterPush v pc').afterPop r).mem.get x = s.mem.get x :=
  s.afterPush_get_other v pc' h

/-- A pop after a push gives back the stack pointer. -/
theorem State.afterPush_afterPop_sp (h : 1 ≤ s.sp) : ((s.afterPush v pc').afterPop r).sp = s.sp :=
  Nat.sub_add_cancel h

end

/-! ### PUSH and POP (R151, R152) -/

/-- Settles O24: `PUSH` pushes the register's byte, and `State.afterPush_frame` says what else stands. -/
theorem pushStoresBelowTheTop : Obligations.PushStoresBelowTheTop := by
  intro s a r ha hlo hhi
  obtain ⟨htop, hbytes, hsp, hregs, hrest⟩ := s.afterPush_frame (s.reg r) (s.pc + 2) hlo
  exact ⟨_, (Completes.push ha hlo hhi).exec_eq, htop, hbytes, hsp, rfl, hregs, hrest⟩

/-- Settles O25: `POP` writes the one register and no cell. -/
theorem popLoadsTheTop : Obligations.PopLoadsTheTop := by
  intro s a r ha hsp
  exact ⟨_, (Completes.pop ha hsp).exec_eq, s.afterPop_reg_same r, s.afterPop_regsKeptBut r ha, rfl, rfl,
    fun _ => rfl, rfl, rfl, rfl⟩

/-! ### The steps that push and pop (R151, R152, R160) -/

theorem decode_push (a b : Byte) : decode 0x45 a b = .ok (.push a) := rfl

theorem decode_pop (a b : Byte) : decode 0x46 a b = .ok (.pop a) := rfl

theorem decode_call (a b : Byte) : decode 0x50 a b = .ok (.call a) := rfl

section

variable {s : State} {a : Byte} {r : Fin Config.numRegs} (hrun : s.status = .running) (hpc : s.pc ≤ 253)
  (ha : r.val = a.toNat) (hbyteA : s.mem.get (s.pc + 1) = a)

include hrun hpc ha hbyteA

theorem step_push (hlo : 1 ≤ s.sp) (hhi : s.sp ≤ 256) (hop : s.mem.get s.pc = 0x45) :
    step s = .next (s.afterPush (s.reg r) (s.pc + 2)) :=
  (Completes.push ha hlo hhi).step_eq hrun (fetchDecode_of_decode hpc (by rw [hop, hbyteA, decode_push]))

theorem step_pop (hsp : s.sp ≤ 255) (hop : s.mem.get s.pc = 0x46) : step s = .next (s.afterPop r) :=
  (Completes.pop ha hsp).step_eq hrun (fetchDecode_of_decode hpc (by rw [hop, hbyteA, decode_pop]))

theorem step_call (hlo : 1 ≤ s.sp) (hhi : s.sp ≤ 256) (hop : s.mem.get s.pc = 0x50) :
    step s = .next (s.afterPush (returnAddress s.pc) (s.reg r).toNat) :=
  (Completes.call ha hlo hhi).step_eq hrun (fetchDecode_of_decode hpc (by rw [hop, hbyteA, decode_call]))

end

/-- A `POP` at `p` that the push before it has not overwritten is the next step after the push. -/
theorem step_afterPush_pop {s : State} {v b : Byte} {p : Nat} {r : Fin Config.numRegs} (hrun : s.status = .running)
    (hp : p ≤ 253) (hb : r.val = b.toNat) (hlo : 1 ≤ s.sp) (hhi : s.sp ≤ 256) (hop : s.mem.get p = 0x46)
    (hbyteA : s.mem.get (p + 1) = b) (hneOp : s.sp - 1 ≠ p) (hneA : s.sp - 1 ≠ p + 1) :
    step (s.afterPush v p) = .next ((s.afterPush v p).afterPop r) := by
  have hcell : s.sp - 1 ≤ 255 := by omega
  exact step_pop hrun hp hb ((s.afterPush_get_other v p hneA).trans hbyteA) hcell
    ((s.afterPush_get_other v p hneOp).trans hop)

/-! ### PUSH, then POP (R151, R152) -/

/-- Settles O38: the push leaves the `POP` as it stood, and the pop gives back byte and stack pointer. -/
theorem pushThenPopMovesTheRegister : Obligations.PushThenPopMovesTheRegister := by
  intro s a b r r2 hrun hpc hlo hhi ha hb hpush hpushA hpop hpopA hneOp hneA
  have hstepPush := step_push hrun (by omega) ha hpushA hlo hhi hpush
  have hstepPop := step_afterPush_pop (v := s.reg r) hrun (by omega) hb hlo hhi hpop hpopA hneOp hneA
  exact ⟨_, _, hstepPush, hstepPop, State.afterPush_afterPop_reg .., State.afterPop_regsKeptBut _ _ hb,
    State.afterPush_afterPop_sp _ _ _ _ hlo, s.afterPush_get_top (s.reg r) (s.pc + 2), rfl, hrun⟩

/-! ### CALL, then POP and CALL through the popped address (R160, R162) -/

/-- The return address fits its cell wherever a `CALL` can be fetched (R51, R160). -/
theorem returnAddress_toNat {pc0 : Nat} (h : pc0 ≤ 253) : (returnAddress pc0).toNat = pc0 + 2 := by
  rw [returnAddress, BitVec.toNat_ofNat]
  omega

/-- Settles O39: the routine pops the return address and the stack pointer back, and its own `CALL` goes there. -/
theorem callPopCallComesBack : Obligations.CallPopCallComesBack := by
  rintro s a b r r2 _ hrun hpc hlo hhi ha hb rfl hp hcall hcallA hpop hpopA hback hbackA hne
  have hstepCall := step_call hrun hpc ha hcallA hlo hhi hcall
  have hstepPop := step_afterPush_pop (v := returnAddress s.pc) hrun (by omega) hb hlo hhi hpop hpopA
    (hne 0 (by omega)) (hne 1 (by omega))
  have hsp := s.afterPush_afterPop_sp (returnAddress s.pc) (s.reg r).toNat r2 hlo
  have hstepBack : step ((s.afterPush (returnAddress s.pc) (s.reg r).toNat).afterPop r2) = _ :=
    step_call hrun (Nat.add_le_add_right hp 2) hb
      ((s.afterPush_afterPop_get_other _ _ _ (hne 3 (by omega))).trans hbackA) (hsp.symm ▸ hlo) (hsp.symm ▸ hhi)
      ((s.afterPush_afterPop_get_other _ _ _ (hne 2 (by omega))).trans hback)
  refine ⟨_, _, _, hstepCall, hstepPop, hstepBack, ?_, ?_, hrun⟩
  · rw [State.afterPush_pc, State.afterPush_afterPop_reg, returnAddress_toNat hpc]
  · rw [State.afterPush_sp, hsp, Nat.sub_add_cancel hlo]

end Sys2Proof.Machine

namespace Sys2Proof.Machine

/-! # Control transfer

`CALL` is a push of the return address with the register's byte as the next `pc`, so its frame is the push's. -/

/-- Settles O26: `State.afterPush_frame` for the return address, which at `pc` at most 253 its cell holds whole (R51,
R160). -/
theorem callPushesAndJumps : Obligations.CallPushesAndJumps := by
  intro s a r ha hlo hhi hpc
  obtain ⟨htop, hbytes, hsp, hregs, hrest⟩ := s.afterPush_frame (returnAddress s.pc) (s.reg r).toNat hlo
  refine ⟨_, (Completes.call ha hlo hhi).exec_eq, rfl, fun addr haddr => ?_, hbytes, hsp, hregs, hrest⟩
  calc ((s.afterPush (returnAddress s.pc) (s.reg r).toNat).mem.get addr).toNat
      = (returnAddress s.pc).toNat := congrArg BitVec.toNat (htop addr haddr)
    _ = s.pc + 2 := returnAddress_toNat hpc

end Sys2Proof.Machine

namespace Sys2Proof.Machine

/-! # Decode and encode

The decoder of the engine, then the decoder of a listing: both read an instruction exactly where its encoding stands
(R80 to R82, R93). -/

theorem encode_length (i : Instr) : (encode i).length = i.length := by
  cases i <;> rfl

theorem length_pos (i : Instr) : 0 < i.length := by
  cases i <;> exact Nat.succ_pos _

/-- A row's instruction has the row's length, and its bytes are the row's opcode and the operand bytes, cut to that
length (R81, R82). -/
theorem OpcodeRow.build_encode {row : OpcodeRow} (h : row ∈ opcodeTable) (a b : Byte) :
    (row.build a b).length = row.length ∧ encode (row.build a b) = [row.opcode, a, b].take row.length := by
  simp only [opcodeTable, List.mem_cons, List.not_mem_nil, or_false] at h
  obtain rfl | rfl | rfl | rfl | rfl | rfl | rfl | rfl | rfl := h <;> exact ⟨rfl, rfl⟩

/-- An instruction's own bytes, whatever is latched beyond them, decode to it (R82). -/
theorem decode_eq_ok_of_encode_eq_take {ir a b : Byte} {i : Instr} (h : encode i = [ir, a, b].take i.length) :
    decode ir a b = .ok i := by
  cases i <;>
    · simp only [encode, Instr.length, List.take_succ_cons, List.take_zero, List.cons.injEq, and_true] at h
      simp only [← h]
      rfl

theorem decode_eq_ok_iff {ir a b : Byte} {i : Instr} :
    decode ir a b = .ok i ↔ encode i = [ir, a, b].take i.length := by
  refine ⟨fun h => ?_, decode_eq_ok_of_encode_eq_take⟩
  obtain ⟨row, hrow, hd⟩ | ⟨-, hd⟩ := decode_cases ir a b
  · obtain ⟨hmem, rfl⟩ := opcodeRow?_some hrow
    obtain ⟨hlen, henc⟩ := OpcodeRow.build_encode hmem a b
    cases hd.symm.trans h
    rw [henc, hlen]
  · cases hd.symm.trans h

/-- A listing's decoder takes the instruction the engine's decoder takes, where the bytes reach to its end. -/
theorem decodeBytes_cons_eq_ok_iff {ir : Byte} {bytes rest : List Byte} {i : Instr} :
    decodeBytes (ir :: bytes) = .ok (i, rest) ↔
      decode ir (bytes.getD 0 0) (bytes.getD 1 0) = .ok i ∧ i.length ≤ bytes.length + 1 ∧
        rest = bytes.drop (i.length - 1) := by
  cases hrow : opcodeRow? ir with
  | none => simp [decodeBytes, decode, hrow]
  | some row =>
    obtain ⟨hmem, -⟩ := opcodeRow?_some hrow
    obtain ⟨hlen, -⟩ := OpcodeRow.build_encode hmem (bytes.getD 0 0) (bytes.getD 1 0)
    simp only [decodeBytes, decode, hrow, Except.ok.injEq]
    constructor
    · intro h
      split at h
      · cases h
        rw [hlen]
        exact ⟨rfl, ‹_›, rfl⟩
      · cases h
    · rintro ⟨rfl, hle, rfl⟩
      rw [hlen] at hle ⊢
      exact if_pos hle

/-- Up to three bytes, what stands in a list is what a latch that fills up with zeros holds. -/
theorem take_latched {ir : Byte} {bytes : List Byte} {n : Nat} (h3 : n ≤ 3) (h : n ≤ bytes.length + 1) :
    [ir, bytes.getD 0 0, bytes.getD 1 0].take n = (ir :: bytes).take n := by
  match bytes, n with
  | _, 0 | _, 1 | _ :: _, 2 | _ :: _ :: _, 3 => rfl
  | [], n + 2 => exact absurd h (by simp)
  | [_], 3 => exact absurd h (by simp)
  | _, n + 4 => omega

/-- Settles O3: a row's bytes one way, the bytes of each instruction the other. -/
theorem latchedBytesDecodeByLength : Obligations.LatchedBytesDecodeByLength :=
  fun _ _ _ _ => decode_eq_ok_iff

/-- A list begins with an instruction's encoding exactly when the cut at its length is the encoding and leaves the
rest. -/
theorem eq_encode_append_iff {bytes rest : List Byte} {i : Instr} :
    bytes = encode i ++ rest ↔ encode i = bytes.take i.length ∧ rest = bytes.drop i.length := by
  constructor
  · rintro rfl
    simp [← encode_length]
  · rintro ⟨henc, rfl⟩
    rw [henc, List.take_append_drop]

/-- Settles O2: both sides say that the cut of the bytes at the instruction's length is its encoding, the left side by
`decode_eq_ok_iff`. -/
theorem decodeAndEncodeAgree : Obligations.DecodeAndEncodeAgree := by
  intro bytes i rest
  rw [eq_encode_append_iff]
  have hpos := length_pos i
  have henc := encode_length i
  cases bytes with
  | nil =>
    have hne : encode i ≠ [] := List.ne_nil_of_length_pos (henc.symm ▸ hpos)
    simp [decodeBytes, hne]
  | cons ir bytes =>
    have hdrop : (ir :: bytes).drop i.length = bytes.drop (i.length - 1) := List.drop_cons hpos
    rw [decodeBytes_cons_eq_ok_iff, decode_eq_ok_iff, hdrop]
    constructor
    · rintro ⟨henc, hle, hrest⟩
      exact ⟨henc.trans (take_latched (length_le_three i) hle), hrest⟩
    · rintro ⟨htake, hrest⟩
      have hle : i.length ≤ bytes.length + 1 := by
        have hlen := congrArg List.length htake
        rw [henc, List.length_take, List.length_cons] at hlen
        omega
      exact ⟨htake.trans (take_latched (length_le_three i) hle).symm, hle, hrest⟩

/-- Settles O1: the table's rows, one by one. -/
theorem nineOpcodesDecode : Obligations.NineOpcodesDecode :=
  fun a b => ⟨⟨rfl, rfl⟩, ⟨decode_prn a b, rfl⟩, ⟨decode_ldi a b, rfl⟩, ⟨rfl, rfl⟩, ⟨rfl, rfl⟩,
    ⟨decode_push a b, rfl⟩, ⟨decode_pop a b, rfl⟩, ⟨decode_call a b, rfl⟩, ⟨rfl, rfl⟩⟩

end Sys2Proof.Machine

namespace Sys2Proof.Machine

/-! # Reset, and how a step can end -/

/-! ### Reset (R38, R200) -/

/-- Settles O15: reset memory lists no cell, and every register of the file is the same reset value. -/
theorem resetLeavesTheStatedValues : Obligations.ResetLeavesTheStatedValues := by
  refine ⟨fun addr hlo hhi => memRead_eq_ok_iff.2 ⟨hlo, hhi, (Memory.get_nil _).symm⟩, fun r => ?_, rfl, rfl, rfl, rfl,
    rfl⟩
  rw [State.reset, State.reg_mk]
  exact Vector.getElem_replicate _

/-- Settles O16: the canonical form of reset memory, and two numerals. -/
theorem resetMeetsTheInvariant : Obligations.ResetMeetsTheInvariant :=
  ⟨Memory.wf_reset, by decide, by decide⟩

/-! ### HLT and IRET (R116, R161) -/

/-- Settles O19: the completion of `HLT` writes `status` alone. -/
theorem hltHaltsAndChangesNothingElse : Obligations.HltHaltsAndChangesNothingElse :=
  fun _ => ⟨_, Completes.hlt.exec_eq, rfl, fun _ => rfl, fun _ => rfl, rfl, rfl, rfl, rfl⟩

/-- Settles O27: the completion of `IRET` writes `pc` alone. -/
theorem iretOnlyAdvances : Obligations.IretOnlyAdvances :=
  fun _ => ⟨_, Completes.iret.exec_eq, rfl, fun _ => rfl, fun _ => rfl, rfl, rfl, rfl, rfl⟩

/-! ### Ended engines (R111, R118) -/

theorem step_of_halted {s : State} (h : s.status = .halted) : step s = .fault .engineHalted := by
  simp only [step, stopped?, h]

theorem step_of_faulted {s : State} {e : FatalError} (h : s.status = .faulted e) :
    step s = .fault (.engineFaulted e) := by
  simp only [step, stopped?, h]

/-- A running engine halts on a `HLT`, goes on after any other instruction, or meets a fatal error (R111). -/
theorem step_outcomes {s : State} (hrun : s.status = .running) :
    (fetchDecode s = .ok .hlt ∧ step s = .next s.halt) ∨ (∃ t, step s = .next t ∧ t.status = .running) ∨
      ∃ e, step s = .next (s.faultedBy e) := by
  obtain ⟨e, -, hstep⟩ | ⟨i, hf, hstep⟩ := step_of_running hrun
  · exact .inr (.inr ⟨e, hstep⟩)
  · obtain ⟨t, hc⟩ | ⟨e, he⟩ := completes_or_rejects s i
    · have hnext := hstep.trans hc.exec_eq
      cases hc with
      | hlt => exact .inl ⟨hf, hnext⟩
      | prn | ldi | add | mul | push | pop | call | iret => exact .inr (.inl ⟨_, hnext, hrun⟩)
    · exact .inr (.inr ⟨e, hstep.trans he.exec_eq⟩)

/-- A running engine always has a step. -/
theorem exists_step {s : State} (hrun : s.status = .running) : ∃ t, step s = .next t := by
  obtain ⟨-, h⟩ | ⟨t, h, -⟩ | ⟨e, h⟩ := step_outcomes hrun <;> exact ⟨_, h⟩

/-- Settles O8: the outcomes of `step_outcomes`. -/
theorem runningStepHasThreeOutcomes : Obligations.RunningStepHasThreeOutcomes := by
  intro s hrun
  obtain ⟨hf, h⟩ | h | h := step_outcomes hrun
  · exact .inr (.inl ⟨h, hf⟩)
  · exact .inl h
  · exact .inr (.inr h)

/-- Settles O7: the two faults of `step`, and a step for every running engine (`exists_step`). -/
theorem endedEngineHasNoStep : Obligations.EndedEngineHasNoStep := by
  intro s
  refine ⟨step_of_halted, fun _ => step_of_faulted, fun hended t h => hended (running_of_step h), fun hnone hrun => ?_⟩
  obtain ⟨t, h⟩ := exists_step hrun
  exact hnone t h

/-! ### Straight-line runs (R210) -/

/-- The first step of a straight-line run is not of a `CALL`, and the run goes on from the state after it. -/
theorem straightRun_succ {n : Nat} {s : State} (h : straightRun (n + 1) s = true) :
    ∃ t, step s = .next t ∧ (∀ a, fetchDecode s ≠ .ok (.call a)) ∧ straightRun n t = true := by
  unfold straightRun at h
  split at h
  · cases h
  · next t hstep hcall => exact ⟨t, hstep, fun a hf => hcall a hf, h⟩
  · cases h

/-- An engine that has ended takes no further step of a run. -/
theorem eq_zero_of_straightRun_of_ended {n : Nat} {s : State} (h : straightRun n s = true) (hended : s.Ended) :
    n = 0 := by
  cases n with
  | zero => rfl
  | succ n =>
    obtain ⟨t, hstep, -⟩ := straightRun_succ h
    exact absurd (running_of_step hstep) hended

/-- A step that is no `CALL` and does not end the run is taken at 253 or below and raises `pc`. -/
theorem pc_lt_of_step {s t : State} (h : step s = .next t) (hcall : ∀ a, fetchDecode s ≠ .ok (.call a))
    (ht : t.status = .running) : s.pc ≤ 253 ∧ s.pc < t.pc := by
  obtain ⟨i, hf, hpc⟩ := (programCounterAfterEachStep s t (running_of_step h) h).2 ht
  refine ⟨pc_le_of_fetchDecode hf, ?_⟩
  obtain ⟨a, -, rfl, -⟩ | ⟨-, hpc⟩ := hpc
  · exact absurd hf (hcall a)
  · have hpos := length_pos i
    omega

/-- Settles O40, by induction on the steps: each raises `pc` from 253 or below, or is the last. -/
theorem straightLineRunEnds : Obligations.StraightLineRunEnds := by
  intro n
  induction n with
  | zero => intro s _; omega
  | succ n ih =>
    intro s h
    obtain ⟨t, hstep, hcall, hrest⟩ := straightRun_succ h
    by_cases ht : t.status = .running
    · obtain ⟨hle, hlt⟩ := pc_lt_of_step hstep hcall ht
      have hbound := ih t hrest
      omega
    · have hlast := eq_zero_of_straightRun_of_ended hrest ht
      omega

end Sys2Proof.Machine

namespace Sys2Proof.Machine

/-! # The fatal errors

Each fatal error by its condition: first of an instruction's execution, then of the step, where the raw bytes at `pc`
say which instruction it is. -/

/-! ### Faults of execution (R172, R173) -/

/-- Settles O28: `Rejects.indexA` and `Rejects.indexB`, which do not ask for `sp`. -/
theorem registerIndexFaults : Obligations.RegisterIndexFaults :=
  fun _ _ _ => ⟨fun ha _ hi => (Rejects.indexA ha hi).exec_eq, fun ha hb _ hi => (Rejects.indexB ha hb hi).exec_eq⟩

theorem pushAddress_of_sp_zero {s : State} (h : s.sp = 0) : pushAddress s = -1 := by
  simp [pushAddress, h]

theorem Rejects.push_at_zero {s : State} {i : Instr} {a : Byte} (ha : a.toNat ≤ 7) (hsp : s.sp = 0)
    (hi : i ∈ [Instr.push a, .call a]) : Rejects s i (.outOfRangeAccess (.memory (-1))) :=
  pushAddress_of_sp_zero hsp ▸ .pushAddress ha (.inl hsp) hi

theorem Rejects.pop_at_top {s : State} {a : Byte} (ha : a.toNat ≤ 7) (hsp : s.sp = 256) :
    Rejects s (.pop a) (.outOfRangeAccess (.memory 256)) := by
  have h : Rejects s (.pop a) (.outOfRangeAccess (.memory s.sp)) := .popAddress ha (by omega)
  rwa [hsp] at h

/-- Settles O30: the rejections at the two ends of the range of `sp`. -/
theorem stackAddressFaults : Obligations.StackAddressFaults :=
  fun _ _ ha => ⟨fun hsp => ⟨(Rejects.push_at_zero ha hsp (by simp)).exec_eq,
    (Rejects.push_at_zero ha hsp (by simp)).exec_eq⟩, fun hsp => (Rejects.pop_at_top ha hsp).exec_eq⟩

/-! ### Faults of the fetch (R112) -/

/-- Fetch and decode come to `i` exactly at 253 and below, over the bytes that decode to it. -/
theorem fetchDecode_eq_ok_iff {s : State} {i : Instr} :
    fetchDecode s = .ok i ↔
      s.pc ≤ 253 ∧ decode (s.mem.get s.pc) (s.mem.get (s.pc + 1)) (s.mem.get (s.pc + 2)) = .ok i := by
  refine ⟨fun h => ?_, fun ⟨hpc, hd⟩ => fetchDecode_of_decode hpc hd⟩
  have hpc := pc_le_of_fetchDecode h
  rw [fetchDecode_ok hpc] at h
  split at h
  · next hd =>
    cases h
    exact ⟨hpc, hd⟩
  · cases h

/-- An access out of range in fetch and decode is that of address 256, at the top of memory (decision D7). -/
theorem fetchDecode_eq_outOfRange_iff {s : State} (hpc : s.pc ≤ 256) {info : OutOfRange} :
    fetchDecode s = .error (.outOfRangeAccess info) ↔ 254 ≤ s.pc ∧ info = .memory 256 := by
  by_cases htop : 254 ≤ s.pc
  · simp [fetchDecode_error htop hpc, htop, eq_comm]
  · rw [fetchDecode_ok (by omega)]
    cases decode (s.mem.get s.pc) (s.mem.get (s.pc + 1)) (s.mem.get (s.pc + 2)) <;> simp [htop]

/-- A running engine's step is the fatal error `e` exactly when it meets `e`. -/
theorem step_eq_faultedBy_iff {s : State} (hrun : s.status = .running) {e : FatalError} :
    step s = .next (s.faultedBy e) ↔ Faults s e :=
  ⟨fun h => .of_step h rfl, fun h => step_eq_next_iff.2 ⟨hrun, .inr ⟨e, h, rfl⟩⟩⟩

/-- Settles O6: the fetch meets address 256 before it comes to an instruction (`fetchDecode_error`). -/
theorem fetchFaultsAtTheTop : Obligations.FetchFaultsAtTheTop :=
  fun _ hrun hlo hhi => (step_eq_faultedBy_iff hrun).2 (.inl (fetchDecode_error hlo hhi))

/-! ### The bytes that decode to a group of instructions (R85) -/

section

variable {ir x y : Byte}

/-- The seven opcodes with a register index in byte `a` (R173). -/
theorem decode_regOperand_iff {a : Byte} :
    (∃ i, decode ir x y = .ok i ∧
        ∃ b, i ∈ [Instr.prn a, .ldi a b, .add a b, .mul a b, .push a, .pop a, .call a]) ↔
      ir ∈ regOperandOpcodes ∧ a = x := by
  simp [decode_eq_ok_iff, encode, Instr.length, regOperandOpcodes, and_or_left, or_and_right, exists_or,
    eq_comm (a := ir)]

/-- The two opcodes of the ALU, with a register index in byte `b` too (R173). -/
theorem decode_alu_iff {a b : Byte} :
    (∃ i, decode ir x y = .ok i ∧ i ∈ [Instr.add a b, .mul a b]) ↔ (ir = 0xA0 ∨ ir = 0xA2) ∧ a = x ∧ b = y := by
  simp [decode_eq_ok_iff, encode, Instr.length, and_or_left, or_and_right, exists_or, eq_comm (a := ir)]

/-- The two opcodes that push (R150). -/
theorem decode_pusher_iff {a : Byte} :
    (∃ i, decode ir x y = .ok i ∧ i ∈ [Instr.push a, .call a]) ↔ (ir = 0x45 ∨ ir = 0x50) ∧ a = x := by
  simp [decode_eq_ok_iff, encode, Instr.length, and_or_left, or_and_right, exists_or, eq_comm (a := ir)]

theorem decode_eq_pop_iff {a : Byte} : decode ir x y = .ok (.pop a) ↔ ir = 0x46 ∧ a = x := by
  simp [decode_eq_ok_iff, encode, Instr.length, eq_comm (a := ir)]

end

/-! ### Faults of the step (R171 to R174, in the order of R115 and R177) -/

/-- A step meets a register index out of range under its condition of R173: the fetch meets none, and the bytes that
execution rejects are those at `pc`. -/
theorem faults_register_iff {s : State} (hpc : s.pc ≤ 256) {k : Byte} :
    Faults s (.outOfRangeAccess (.register k)) ↔ FatalCondition s (.outOfRangeAccess (.register k)) := by
  constructor
  · rintro (hf | ⟨i, hf, hrej⟩)
    · cases ((fetchDecode_eq_outOfRange_iff hpc).1 hf).2
    · obtain ⟨hle, hd⟩ := fetchDecode_eq_ok_iff.1 hf
      cases hrej with
      | @indexA _ _ b hk hi =>
        obtain ⟨hop, rfl⟩ := decode_regOperand_iff.1 ⟨i, hd, b, hi⟩
        exact ⟨hle, .inl ⟨hop, rfl, hk⟩⟩
      | indexB ha hk hi =>
        obtain ⟨hop, rfl, rfl⟩ := decode_alu_iff.1 ⟨i, hd, hi⟩
        exact ⟨hle, .inr ⟨hop, ha, rfl, hk⟩⟩
  · rintro ⟨hle, ⟨hop, rfl, hk⟩ | ⟨hop, ha, rfl, hk⟩⟩
    · obtain ⟨i, hd, b, hi⟩ := decode_regOperand_iff.2 ⟨hop, rfl⟩
      exact .inr ⟨i, fetchDecode_of_decode hle hd, .indexA hk hi⟩
    · obtain ⟨i, hd, hi⟩ := decode_alu_iff.2 ⟨hop, rfl, rfl⟩
      exact .inr ⟨i, fetchDecode_of_decode hle hd, .indexB ha hk hi⟩

/-- A step meets a memory address out of range under its condition of R172: at the top of memory in the fetch, at an end
of the range of `sp` in execution. -/
theorem faults_memory_iff {s : State} (hpc : s.pc ≤ 256) (hsp : s.sp ≤ 256) {addr : Int} :
    Faults s (.outOfRangeAccess (.memory addr)) ↔ FatalCondition s (.outOfRangeAccess (.memory addr)) := by
  constructor
  · rintro (hf | ⟨i, hf, hrej⟩)
    · obtain ⟨htop, hinfo⟩ := (fetchDecode_eq_outOfRange_iff hpc).1 hf
      exact .inl ⟨htop, OutOfRange.memory.inj hinfo⟩
    · obtain ⟨hle, hd⟩ := fetchDecode_eq_ok_iff.1 hf
      cases hrej with
      | pushAddress ha hend hi =>
        have hzero : s.sp = 0 := by omega
        obtain ⟨hop, rfl⟩ := decode_pusher_iff.1 ⟨i, hd, hi⟩
        exact .inr ⟨hle, ha, .inl ⟨hop, hzero, pushAddress_of_sp_zero hzero⟩⟩
      | popAddress ha hend =>
        have htop : s.sp = 256 := by omega
        obtain ⟨hop, rfl⟩ := decode_eq_pop_iff.1 hd
        exact .inr ⟨hle, ha, .inr ⟨hop, htop, congrArg Nat.cast htop⟩⟩
  · rintro (⟨htop, rfl⟩ | ⟨hle, ha, ⟨hop, hzero, rfl⟩ | ⟨hop, htop, rfl⟩⟩)
    · exact .inl (fetchDecode_error htop hpc)
    · obtain ⟨i, hd, hi⟩ := decode_pusher_iff.2 ⟨hop, rfl⟩
      exact .inr ⟨i, fetchDecode_of_decode hle hd, .push_at_zero ha hzero hi⟩
    · exact .inr ⟨_, fetchDecode_of_decode hle (decode_eq_pop_iff.2 ⟨hop, rfl⟩), .pop_at_top ha htop⟩

/-- A step meets each fatal error exactly under its condition. -/
theorem faults_iff_fatalCondition {s : State} (hs : s.Inv) (e : FatalError) : Faults s e ↔ FatalCondition s e := by
  obtain ⟨-, hpc, hsp⟩ := hs
  match e with
  | .unknownOpcode ir => exact faults_unknownOpcode_iff
  | .outOfRangeAccess (.register k) => exact faults_register_iff hpc
  | .outOfRangeAccess (.memory addr) => exact faults_memory_iff hpc hsp
  | .unsupportedOperation op =>
    refine iff_of_false (fun h => ?_) id
    obtain ⟨ir, he⟩ | ⟨info, he⟩ := h.kind_cases <;> cases he

/-- The state after a step is free of a fatal error exactly when the step met none. -/
theorem safe_iff_not_faults {s t : State} (h : step s = .next t) : t.Safe ↔ ∀ e, ¬ Faults s e := by
  constructor
  · intro hsafe e he
    cases h.symm.trans ((step_eq_faultedBy_iff (running_of_step h)).2 he)
    exact hsafe e rfl
  · exact fun hnone e ht => hnone e (.of_step h ht)

/-- Settles O9: the fatal error of a step is the one it meets, and `faults_iff_fatalCondition` gives its condition. -/
theorem fatalErrorsExactlyByTheirConditions : Obligations.FatalErrorsExactlyByTheirConditions := by
  intro s hs hrun
  simp only [← faults_iff_fatalCondition hs]
  exact ⟨fun _ => step_eq_faultedBy_iff hrun, fun _ => safe_iff_not_faults⟩

end Sys2Proof.Machine
